-- ==== Sys2Proof/Word.lean ====
section
/-!
DEFINITION. The machine's word types. Every value of this machine is unsigned (R8); bit 0 is the least
significant bit (R7), which is how `BitVec` numbers bits.
-/

namespace Sys2Proof

/-- A 4-bit field of an instruction (R81). -/
abbrev Nibble := BitVec 4

/-- One byte of memory, one general register, one timer (R6). -/
abbrev Byte := BitVec 8

/-- A 12-bit address field NNN (R81). -/
abbrev Addr12 := BitVec 12

/-- The 16-bit instruction word, and the width of PC, I and the stack slots (R6). -/
abbrev Word := BitVec 16

end Sys2Proof
end

