-- ==== Sys2Proof/Config.lean ====
section
/-!
DEFINITION. What is fixed for this machine: the implementation parameters of R6, and the one free value (the
environment's random bytes). The parameters a test could show wrong (the font bytes, the order of result and flag)
are definitions of Machine/Font.lean and Machine/Flags.lean, where a repair may mend them.
-/

namespace Sys2Proof.Config

/-- MEM_SIZE: addresses 0 to 4095 (R6, R50). -/
abbrev memSize : Nat := 4096

/-- NREG: general registers V0 to VF (R6, R20). -/
abbrev numRegs : Nat := 16

/-- FLAG_REG: VF, register 15 (R6, R21). -/
abbrev flagReg : Fin 16 := 15

/-- STACK_DEPTH: slots of the call stack (R6, R31). -/
abbrev stackDepth : Nat := 16

/-- NKEYS: keys of the keypad (R6, R38). -/
abbrev numKeys : Nat := 16

/-- FB_W: columns of the framebuffer (R6, R37). -/
abbrev fbWidth : Nat := 64

/-- FB_H: rows of the framebuffer (R6, R37). -/
abbrev fbHeight : Nat := 32

/-- FONT_BASE: where the font table lies (R6, R61). -/
abbrev fontBase : Nat := 0x050

/-- FONT_LEN: 16 glyphs of 5 bytes (R6, R62). -/
abbrev fontLen : Nat := 80

/-- PROG_START: where the program region starts and PC points after reset (R6, R61, R243). -/
abbrev progStart : Nat := 0x200

/-- ROM_MAX: the largest loadable ROM (R6). -/
abbrev romMax : Nat := 3584

/-- The parameter RESET_UPD of decision D12, at the spec's default: UPD is 0 after reset (R36, R240). -/
abbrev resetUpd : Bool := false

/-- The parameter VF_ORDER of decision D5: which of the two writes of a flag-writing instruction comes last. -/
inductive VfOrder
  | flagLast
  | resultLast
  deriving DecidableEq, Repr

/-- FREE VALUE (R41, R132, decision D2; log 9): the environment's random byte for draw number `n`, where the host has
supplied none. It has no body, so nothing can be proved of any of its values, nor of two of them together. -/
opaque randomByte : Nat → Byte

end Sys2Proof.Config
end

