-- ==== Sys2Proof/Syntax.lean ====
section
/-!
DEFINITION. The instructions: one constructor for each of the 34 rows of R86 (spec/opcode_table.json), in the table's
order. Operands are the decoded fields of R81.
-/

namespace Sys2Proof

/-- A register-index argument of a handler. It is a natural number because the machine itself checks that it
"resolves to 0–15" (R23); `Instr.wellFormed` says that it does. -/
abbrev RegIndex := Nat

inductive Instr
  /-- 00E0, `CLS` (R140) -/
  | cls
  /-- 00EE, `RET` (R152) -/
  | ret
  /-- 1NNN, `JP addr` (R150) -/
  | jp (nnn : Addr12)
  /-- 2NNN, `CALL addr` (R151) -/
  | call (nnn : Addr12)
  /-- 3XNN, `SE Vx, byte` (R154) -/
  | seByte (x : RegIndex) (nn : Byte)
  /-- 4XNN, `SNE Vx, byte` (R155) -/
  | sneByte (x : RegIndex) (nn : Byte)
  /-- 5XY0, `SE Vx, Vy` (R156) -/
  | seReg (x y : RegIndex)
  /-- 6XNN, `LD Vx, byte` (R121) -/
  | ldByte (x : RegIndex) (nn : Byte)
  /-- 7XNN, `ADD Vx, byte` (R122) -/
  | addByte (x : RegIndex) (nn : Byte)
  /-- 8XY0, `LD Vx, Vy` (R123) -/
  | ldReg (x y : RegIndex)
  /-- 8XY1, `OR Vx, Vy` (R124) -/
  | orReg (x y : RegIndex)
  /-- 8XY2, `AND Vx, Vy` (R125) -/
  | andReg (x y : RegIndex)
  /-- 8XY3, `XOR Vx, Vy` (R126) -/
  | xorReg (x y : RegIndex)
  /-- 8XY4, `ADD Vx, Vy` (R127) -/
  | addReg (x y : RegIndex)
  /-- 8XY5, `SUB Vx, Vy` (R128) -/
  | subReg (x y : RegIndex)
  /-- 8XY6, `SHR Vx` (R129). Y is "part of neither the opcode nor the operands" (R88): it is kept as the bits it is,
  so that the word can be written back, and names no register. -/
  | shr (x : RegIndex) (y : Nibble)
  /-- 8XY7, `SUBN Vx, Vy` (R130) -/
  | subnReg (x y : RegIndex)
  /-- 8XYE, `SHL Vx` (R131). Y as in `shr` (R88). -/
  | shl (x : RegIndex) (y : Nibble)
  /-- 9XY0, `SNE Vx, Vy` (R157) -/
  | sneReg (x y : RegIndex)
  /-- ANNN, `LD I, addr` (R170) -/
  | ldI (nnn : Addr12)
  /-- BNNN, `JP V0, addr` (R153) -/
  | jpV0 (nnn : Addr12)
  /-- CXNN, `RND Vx, byte` (R132) -/
  | rnd (x : RegIndex) (nn : Byte)
  /-- DXYN, `DRW Vx, Vy, nibble` (R141) -/
  | drw (x y : RegIndex) (n : Nibble)
  /-- EX9E, `SKP Vx` (R158) -/
  | skp (x : RegIndex)
  /-- EXA1, `SKNP Vx` (R159) -/
  | sknp (x : RegIndex)
  /-- FX07, `LD Vx, DT` (R180) -/
  | ldVxDt (x : RegIndex)
  /-- FX0A, `LD Vx, K` (R183) -/
  | ldVxK (x : RegIndex)
  /-- FX15, `LD DT, Vx` (R181) -/
  | ldDtVx (x : RegIndex)
  /-- FX18, `LD ST, Vx` (R182) -/
  | ldStVx (x : RegIndex)
  /-- FX1E, `ADD I, Vx` (R171) -/
  | addI (x : RegIndex)
  /-- FX29, `LD F, Vx` (R172) -/
  | ldF (x : RegIndex)
  /-- FX33, `LD B, Vx` (R173) -/
  | ldB (x : RegIndex)
  /-- FX55, `LD [I], Vx` (R174) -/
  | storeRegs (x : RegIndex)
  /-- FX65, `LD Vx, [I]` (R175) -/
  | loadRegs (x : RegIndex)
  deriving DecidableEq, Repr

end Sys2Proof
end

