-- ==== Sys2Proof/WellFormed.lean ====
section
/-!
DEFINITION. Which instruction terms stand for an instruction of the machine: every register-index operand resolves to
0–15 (R23). The other operands are bit fields of their exact width (R81), so nothing is left to check of them.
-/

namespace Sys2Proof

/-- "all register-index arguments must resolve to 0–15" (R23, U4). -/
abbrev RegIndex.ok (x : RegIndex) : Bool := decide (x < Config.numRegs)

def Instr.wellFormed : Instr → Bool
  | .cls => true
  | .ret => true
  | .jp _ => true
  | .call _ => true
  | .seByte x _ => RegIndex.ok x
  | .sneByte x _ => RegIndex.ok x
  | .seReg x y => RegIndex.ok x && RegIndex.ok y
  | .ldByte x _ => RegIndex.ok x
  | .addByte x _ => RegIndex.ok x
  | .ldReg x y => RegIndex.ok x && RegIndex.ok y
  | .orReg x y => RegIndex.ok x && RegIndex.ok y
  | .andReg x y => RegIndex.ok x && RegIndex.ok y
  | .xorReg x y => RegIndex.ok x && RegIndex.ok y
  | .addReg x y => RegIndex.ok x && RegIndex.ok y
  | .subReg x y => RegIndex.ok x && RegIndex.ok y
  | .shr x _ => RegIndex.ok x
  | .subnReg x y => RegIndex.ok x && RegIndex.ok y
  | .shl x _ => RegIndex.ok x
  | .sneReg x y => RegIndex.ok x && RegIndex.ok y
  | .ldI _ => true
  | .jpV0 _ => true
  | .rnd x _ => RegIndex.ok x
  | .drw x y _ => RegIndex.ok x && RegIndex.ok y
  | .skp x => RegIndex.ok x
  | .sknp x => RegIndex.ok x
  | .ldVxDt x => RegIndex.ok x
  | .ldVxK x => RegIndex.ok x
  | .ldDtVx x => RegIndex.ok x
  | .ldStVx x => RegIndex.ok x
  | .addI x => RegIndex.ok x
  | .ldF x => RegIndex.ok x
  | .ldB x => RegIndex.ok x
  | .storeRegs x => RegIndex.ok x
  | .loadRegs x => RegIndex.ok x

end Sys2Proof
end

