-- ==== Sys2Proof/Decode.lean ====
section
/-!
DEFINITION. The decoder (R81, R82), the dispatcher's match (R85, R86, R87), and the encoder written from the same
table. Every instruction is one 16-bit word, high byte at the lower address (R80, R57).
-/

namespace Sys2Proof

/-- The six overlapping fields every word has (R81). -/
structure Fields where
  p : Nibble
  x : Nibble
  y : Nibble
  n : Nibble
  nn : Byte
  nnn : Addr12
  deriving DecidableEq, Repr

/-- The decoder proper: "every 16-bit value decodes successfully" (R82); the slices are those of R81. -/
def fieldsOf (w : Word) : Fields :=
  { p := w.extractLsb 15 12, x := w.extractLsb 11 8, y := w.extractLsb 7 4, n := w.extractLsb 3 0
    nn := w.extractLsb 7 0, nnn := w.extractLsb 11 0 }

/-- P = 0: only the whole words 00E0 and 00EE (R87, R90). -/
def dispatch0 (f : Fields) : Option Instr :=
  if f.x = 0#4 then
    match f.nn.toNat with
    | 0xE0 => some .cls
    | 0xEE => some .ret
    | _ => none
  else none

/-- P = 8: N selects the operation, one of 0 to 7 and E (R87). -/
def dispatch8 (f : Fields) : Option Instr :=
  match f.n.toNat with
  | 0x0 => some (.ldReg f.x.toNat f.y.toNat)
  | 0x1 => some (.orReg f.x.toNat f.y.toNat)
  | 0x2 => some (.andReg f.x.toNat f.y.toNat)
  | 0x3 => some (.xorReg f.x.toNat f.y.toNat)
  | 0x4 => some (.addReg f.x.toNat f.y.toNat)
  | 0x5 => some (.subReg f.x.toNat f.y.toNat)
  | 0x6 => some (.shr f.x.toNat f.y)
  | 0x7 => some (.subnReg f.x.toNat f.y.toNat)
  | 0xE => some (.shl f.x.toNat f.y)
  | _ => none

/-- P = E: NN selects the operation, 9E or A1 (R87). -/
def dispatchE (f : Fields) : Option Instr :=
  match f.nn.toNat with
  | 0x9E => some (.skp f.x.toNat)
  | 0xA1 => some (.sknp f.x.toNat)
  | _ => none

/-- P = F: NN selects the operation, one of nine values (R87). -/
def dispatchF (f : Fields) : Option Instr :=
  match f.nn.toNat with
  | 0x07 => some (.ldVxDt f.x.toNat)
  | 0x0A => some (.ldVxK f.x.toNat)
  | 0x15 => some (.ldDtVx f.x.toNat)
  | 0x18 => some (.ldStVx f.x.toNat)
  | 0x1E => some (.addI f.x.toNat)
  | 0x29 => some (.ldF f.x.toNat)
  | 0x33 => some (.ldB f.x.toNat)
  | 0x55 => some (.storeRegs f.x.toNat)
  | 0x65 => some (.loadRegs f.x.toNat)
  | _ => none

/-- The dispatcher's total match (R85): an exact match on every opcode-role field (R87), `none` for every word that
matches no row of R86 (R89). -/
def dispatch (f : Fields) : Option Instr :=
  match f.p.toNat with
  | 0x0 => dispatch0 f
  | 0x1 => some (.jp f.nnn)
  | 0x2 => some (.call f.nnn)
  | 0x3 => some (.seByte f.x.toNat f.nn)
  | 0x4 => some (.sneByte f.x.toNat f.nn)
  | 0x5 => if f.n = 0#4 then some (.seReg f.x.toNat f.y.toNat) else none
  | 0x6 => some (.ldByte f.x.toNat f.nn)
  | 0x7 => some (.addByte f.x.toNat f.nn)
  | 0x8 => dispatch8 f
  | 0x9 => if f.n = 0#4 then some (.sneReg f.x.toNat f.y.toNat) else none
  | 0xA => some (.ldI f.nnn)
  | 0xB => some (.jpV0 f.nnn)
  | 0xC => some (.rnd f.x.toNat f.nn)
  | 0xD => some (.drw f.x.toNat f.y.toNat f.n)
  | 0xE => dispatchE f
  | 0xF => dispatchF f
  | _ => none

/-- Decode and dispatch of one word: total; `none` is the spec's "invalid opcode" (R89). -/
def decodeWord (w : Word) : Option Instr := dispatch (fieldsOf w)

/-- Why bytes do not decode. -/
inductive DecodeError
  /-- Fewer than two bytes are left. -/
  | truncated
  /-- The word matches no row of R86: "invalid opcode" (R85, R89). -/
  | invalidOpcode (w : Word)
  deriving DecidableEq, Repr

/-- The decoder over bytes, total: the first instruction and the bytes after it, or the reason there is none. The
byte at the lower address is the high byte (R57, R80). -/
def decode : List Byte → Except DecodeError (Instr × List Byte)
  | hi :: lo :: rest =>
    match decodeWord (hi ++ lo) with
    | some i => .ok (i, rest)
    | none => .error (.invalidOpcode (hi ++ lo))
  | [_] => .error .truncated
  | [] => .error .truncated

/-! ### The encoder -/

/-- A register index as the 4-bit field it is encoded in. -/
def regField (x : RegIndex) : Nibble := BitVec.ofNat 4 x

/-- Formats of R83: P, then the fields from the most significant down. -/
def addrWord (p : Nibble) (nnn : Addr12) : Word := p ++ nnn

def regImmWord (p : Nibble) (x : RegIndex) (nn : Byte) : Word := p ++ regField x ++ nn

def regRegWord (p : Nibble) (x y n : Nibble) : Word := p ++ x ++ y ++ n

/-- The word of a well-formed instruction: the pattern column of R86. -/
def encodeWord : Instr → Word
  | .cls => 0x00E0#16
  | .ret => 0x00EE#16
  | .jp nnn => addrWord 0x1#4 nnn
  | .call nnn => addrWord 0x2#4 nnn
  | .seByte x nn => regImmWord 0x3#4 x nn
  | .sneByte x nn => regImmWord 0x4#4 x nn
  | .seReg x y => regRegWord 0x5#4 (regField x) (regField y) 0x0#4
  | .ldByte x nn => regImmWord 0x6#4 x nn
  | .addByte x nn => regImmWord 0x7#4 x nn
  | .ldReg x y => regRegWord 0x8#4 (regField x) (regField y) 0x0#4
  | .orReg x y => regRegWord 0x8#4 (regField x) (regField y) 0x1#4
  | .andReg x y => regRegWord 0x8#4 (regField x) (regField y) 0x2#4
  | .xorReg x y => regRegWord 0x8#4 (regField x) (regField y) 0x3#4
  | .addReg x y => regRegWord 0x8#4 (regField x) (regField y) 0x4#4
  | .subReg x y => regRegWord 0x8#4 (regField x) (regField y) 0x5#4
  | .shr x y => regRegWord 0x8#4 (regField x) y 0x6#4
  | .subnReg x y => regRegWord 0x8#4 (regField x) (regField y) 0x7#4
  | .shl x y => regRegWord 0x8#4 (regField x) y 0xE#4
  | .sneReg x y => regRegWord 0x9#4 (regField x) (regField y) 0x0#4
  | .ldI nnn => addrWord 0xA#4 nnn
  | .jpV0 nnn => addrWord 0xB#4 nnn
  | .rnd x nn => regImmWord 0xC#4 x nn
  | .drw x y n => regRegWord 0xD#4 (regField x) (regField y) n
  | .skp x => regImmWord 0xE#4 x 0x9E#8
  | .sknp x => regImmWord 0xE#4 x 0xA1#8
  | .ldVxDt x => regImmWord 0xF#4 x 0x07#8
  | .ldVxK x => regImmWord 0xF#4 x 0x0A#8
  | .ldDtVx x => regImmWord 0xF#4 x 0x15#8
  | .ldStVx x => regImmWord 0xF#4 x 0x18#8
  | .addI x => regImmWord 0xF#4 x 0x1E#8
  | .ldF x => regImmWord 0xF#4 x 0x29#8
  | .ldB x => regImmWord 0xF#4 x 0x33#8
  | .storeRegs x => regImmWord 0xF#4 x 0x55#8
  | .loadRegs x => regImmWord 0xF#4 x 0x65#8

/-- A word as the two bytes memory holds: high byte first (R57). -/
def wordBytes (w : Word) : List Byte := [w.extractLsb 15 8, w.extractLsb 7 0]

/-- The bytes of a well-formed instruction. -/
def encode (i : Instr) : List Byte := wordBytes (encodeWord i)

/-! ### The match table -/

/-- One row of R86: "a word w is the instruction iff (w & mask) = match". -/
structure Row where
  mnemonic : String
  mask : Word
  pattern : Word
  deriving DecidableEq, Repr

/-- The row of R86 an instruction belongs to. Mnemonics are spelled as in spec/opcode_table.json. -/
def Instr.row : Instr → Row
  | .cls => ⟨"CLS", 0xFFFF#16, 0x00E0#16⟩
  | .ret => ⟨"RET", 0xFFFF#16, 0x00EE#16⟩
  | .jp _ => ⟨"JP_addr", 0xF000#16, 0x1000#16⟩
  | .call _ => ⟨"CALL_addr", 0xF000#16, 0x2000#16⟩
  | .seByte _ _ => ⟨"SE_Vx__byte", 0xF000#16, 0x3000#16⟩
  | .sneByte _ _ => ⟨"SNE_Vx__byte", 0xF000#16, 0x4000#16⟩
  | .seReg _ _ => ⟨"SE_Vx__Vy", 0xF00F#16, 0x5000#16⟩
  | .ldByte _ _ => ⟨"LD_Vx__byte", 0xF000#16, 0x6000#16⟩
  | .addByte _ _ => ⟨"ADD_Vx__byte", 0xF000#16, 0x7000#16⟩
  | .ldReg _ _ => ⟨"LD_Vx__Vy", 0xF00F#16, 0x8000#16⟩
  | .orReg _ _ => ⟨"OR_Vx__Vy", 0xF00F#16, 0x8001#16⟩
  | .andReg _ _ => ⟨"AND_Vx__Vy", 0xF00F#16, 0x8002#16⟩
  | .xorReg _ _ => ⟨"XOR_Vx__Vy", 0xF00F#16, 0x8003#16⟩
  | .addReg _ _ => ⟨"ADD_Vx__Vy", 0xF00F#16, 0x8004#16⟩
  | .subReg _ _ => ⟨"SUB_Vx__Vy", 0xF00F#16, 0x8005#16⟩
  | .shr _ _ => ⟨"SHR_Vx", 0xF00F#16, 0x8006#16⟩
  | .subnReg _ _ => ⟨"SUBN_Vx__Vy", 0xF00F#16, 0x8007#16⟩
  | .shl _ _ => ⟨"SHL_Vx", 0xF00F#16, 0x800E#16⟩
  | .sneReg _ _ => ⟨"SNE_Vx__Vy", 0xF00F#16, 0x9000#16⟩
  | .ldI _ => ⟨"LD_I__addr", 0xF000#16, 0xA000#16⟩
  | .jpV0 _ => ⟨"JP_V0__addr", 0xF000#16, 0xB000#16⟩
  | .rnd _ _ => ⟨"RND_Vx__byte", 0xF000#16, 0xC000#16⟩
  | .drw _ _ _ => ⟨"DRW_Vx__Vy__nibble", 0xF000#16, 0xD000#16⟩
  | .skp _ => ⟨"SKP_Vx", 0xF0FF#16, 0xE09E#16⟩
  | .sknp _ => ⟨"SKNP_Vx", 0xF0FF#16, 0xE0A1#16⟩
  | .ldVxDt _ => ⟨"LD_Vx__DT", 0xF0FF#16, 0xF007#16⟩
  | .ldVxK _ => ⟨"LD_Vx__K", 0xF0FF#16, 0xF00A#16⟩
  | .ldDtVx _ => ⟨"LD_DT__Vx", 0xF0FF#16, 0xF015#16⟩
  | .ldStVx _ => ⟨"LD_ST__Vx", 0xF0FF#16, 0xF018#16⟩
  | .addI _ => ⟨"ADD_I__Vx", 0xF0FF#16, 0xF01E#16⟩
  | .ldF _ => ⟨"LD_F__Vx", 0xF0FF#16, 0xF029#16⟩
  | .ldB _ => ⟨"LD_B__Vx", 0xF0FF#16, 0xF033#16⟩
  | .storeRegs _ => ⟨"LD__I___Vx", 0xF0FF#16, 0xF055#16⟩
  | .loadRegs _ => ⟨"LD_Vx___I", 0xF0FF#16, 0xF065#16⟩

/-! ### The host's reading of one table row -/

/-- An instruction whose table bits are `w`, as memory holds it: one 16-bit word, every bit above `nbits` zero, high
byte at the lower address. -/
def tableBytes (nbits w : Nat) : List Byte := wordBytes (BitVec.ofNat 16 (w % 2 ^ nbits))

/-- What the decoder reads from those bytes. -/
def decodeTableWord (nbits w : Nat) : Option Instr :=
  match decode (tableBytes nbits w) with
  | .ok (i, _) => some i
  | .error _ => none

end Sys2Proof
end

