-- ==== Sys2Proof/Machine/State.lean ====
section
/-!
DEFINITION. The machine's state: every piece of spec/10_state.md, as plain data, and its value at reset (R240).
The last two fields are the model's own: they carry the random byte that is an input of STEP (R41, R42, R132).
-/

namespace Sys2Proof.Machine

/-- MEM, sparse (R39, R50): pairs of an address and its byte, in the canonical form `Memory.wf` of Machine/Ops.lean.
An address that is not listed reads as its reset content, `Memory.unlisted`. -/
abbrev Memory := List Host.Cell

/-- FB (R37): 32 rows of 64 one-bit cells, row 0 first; bit `x` of a row is the cell of column `x`. The cell FB[k] of
the spec is `cell fb k` of Machine/Ops.lean, k = 64·y + x. -/
abbrev Framebuffer := Vector (BitVec 64) 32

/-- The whole state of the machine (spec/10_state.md). -/
structure State where
  /-- V[0..15], the general registers; V[15] is VF, the flag output (R20, R21, R29). -/
  v : Vector Byte 16
  /-- I, the index register; never masked (R30). -/
  i : Word
  /-- PC, the program counter; never masked (R25, R28). -/
  pc : Word
  /-- SP, the number of return addresses on the stack, 0 to 16 (R31, R34). -/
  sp : Fin 17
  /-- STACK[0..15]; not part of memory (R31). -/
  stack : Vector Word 16
  /-- DT, the delay timer (R35). -/
  dt : Byte
  /-- ST, the sound timer (R35). -/
  st : Byte
  /-- FB, the framebuffer (R37). -/
  fb : Framebuffer
  /-- UPD, the framebuffer's "updated" flag (R36). -/
  upd : Bool
  /-- KEY[0..15]: true is pressed (R38). -/
  key : Vector Bool 16
  /-- MEM (R39). -/
  mem : Memory
  /-- The MODEL'S OWN (log 9): random bytes the host has supplied and no CXNN has used yet, next one first. -/
  rndIn : List Byte
  /-- The MODEL'S OWN (log 9): how many random bytes have been drawn; selects the next free value. -/
  draws : Nat
  deriving DecidableEq, Repr

/-- The faults of STEP: exactly the eight of R211, with the info value of R211 as argument. Each ends the step and is
reported to the host; none enters a handler (R219). Ending the run at a fault is safe (D11, log 7). -/
inductive Fault
  /-- Code 1. Raised by any handler that takes X or Y as a register, for an index outside 0..15 (R23); no decoded
  instruction has one. Safe. -/
  | invalidRegister (index : Nat)
  /-- Code 2. Raised by EX9E and EXA1 when V[X] > 15 (R158, R159). Safe. -/
  | invalidKey (value : Byte)
  /-- Code 3. Raised by the dispatcher for a word that matches no row of R86 (R89, R104). Safe: where the real
  dispatcher is laxer the model stops and the hardware goes on (D3, D4). -/
  | invalidOpcode (word : Word)
  /-- Code 4. Raised by DXYN, FX33, FX55, FX65 when a byte of the range at I lies above address 4095
  (R141, R173 to R175). Safe (D9 for DXYN). -/
  | indexOutOfBounds (index : Word)
  /-- Code 5. Raised by DXYN for a pixel index above 2047 (R141: "must be defensively checked"); no draw computes one.
  Safe. -/
  | framebufferOutOfBounds (index : Nat)
  /-- Code 6. Raised by 2NNN when SP = 16 (R32, R151). Safe. -/
  | stackOverflow
  /-- Code 7. Raised by 00EE when SP = 0 (R33, R152). Safe. -/
  | stackUnderflow
  /-- Code 8. Raised by the fetch when PC > 4094 (R101). Safe. -/
  | pcOutOfBounds (pc : Word)
  deriving DecidableEq, Repr

/-- Why an instruction would have no meaning. No arm of `exec` answers this. -/
inductive Refusal
  /-- Raised by `exec` for an instruction that has no meaning yet. Safe. -/
  | notModelled (mnemonic : String)
  deriving DecidableEq, Repr

/-- The machine right after construction or RESET (R240): everything zero, PC at 0x200, and memory at its reset
content, of which nothing is listed. The random input is empty (log 10). -/
def State.reset : State :=
  { v := Vector.replicate 16 0#8
    i := 0#16
    pc := BitVec.ofNat 16 Config.progStart
    sp := 0
    stack := Vector.replicate 16 0#16
    dt := 0#8
    st := 0#8
    fb := Vector.replicate 32 0#64
    upd := Config.resetUpd
    key := Vector.replicate 16 false
    mem := []
    rndIn := []
    draws := 0 }

end Sys2Proof.Machine
end

