-- ==== Sys2Proof/Machine/Ops.lean ====
section
/-!
DEFINITION. The named operations the meanings are written over: memory, registers, program counter, call stack,
framebuffer, keypad, random input, the fetch, and the taking of a fault.
-/

namespace Sys2Proof.Machine

/-! ### Memory: the access primitives of R53 to R56 -/

/-- What an address that is not listed reads as: its content after reset (R61, R62, R240), that is the font at
0x050..0x09F and zero elsewhere. -/
def Memory.unlisted (a : Nat) : Byte :=
  if Config.fontBase ≤ a then font.getD (a - Config.fontBase) 0#8 else 0#8

/-- The canonical form: addresses strictly rising and inside memory, and no entry that says what its address would
read as anyway. Equal memories are then equal lists. -/
abbrev Memory.wf (m : Memory) : Prop :=
  m.Pairwise (fun c d => c.1 < d.1) ∧ ∀ c ∈ m, c.1 < Config.memSize ∧ c.2 ≠ Memory.unlisted c.1

/-- MEM[a], with no bounds check. -/
def Memory.get : Memory → Nat → Byte
  | [], a => Memory.unlisted a
  | (b, v) :: m, a => if a = b then v else Memory.get m a

/-- An entry as the canonical form keeps it: none where it would say nothing new. -/
def Memory.entry (a : Nat) (v : Byte) : Memory := if v = Memory.unlisted a then [] else [(a, v)]

/-- MEM[a] <- v, with no bounds check; keeps the canonical form. -/
def Memory.put : Memory → Nat → Byte → Memory
  | [], a, v => Memory.entry a v
  | (b, w) :: m, a, v =>
    if a < b then Memory.entry a v ++ (b, w) :: m
    else if a = b then Memory.entry a v ++ m
    else (b, w) :: Memory.put m a v

/-- MEM[start], MEM[start+1], ... <- the bytes in ascending order, with no bounds check. -/
def Memory.putAll : Memory → Nat → List Byte → Memory
  | m, _, [] => m
  | m, start, b :: bs => Memory.putAll (Memory.put m start b) (start + 1) bs

/-- `MemRead(addr, 1)` (R53); `none` is the verdict out-of-range. -/
def Memory.read (m : Memory) (a : Nat) : Option Byte :=
  if a < Config.memSize then some (Memory.get m a) else none

/-- `MemRead(addr, 2)` (R54): big-endian, and out-of-range when either byte is. -/
def Memory.readWord (m : Memory) (a : Nat) : Option Word :=
  if a + 1 < Config.memSize then some (Memory.get m a ++ Memory.get m (a + 1)) else none

/-- `MemWrite(addr, 1, v)` (R55). -/
def Memory.write (m : Memory) (a : Nat) (v : Byte) : Option Memory :=
  if a < Config.memSize then some (Memory.put m a v) else none

/-- `MemWriteRange(bytes, start)` (R56): the whole range is written or none of it; `none` is the verdict
would-exceed-capacity. -/
def Memory.writeRange (m : Memory) (bytes : List Byte) (start : Nat) : Option Memory :=
  if start + bytes.length ≤ Config.memSize then some (Memory.putAll m start bytes) else none

/-- The `n` bytes from `start` up, all of them checked before any is used (R52, R141, R175). With n = 0 nothing is
checked (R141, corner case N = 0). -/
def Memory.readRange (m : Memory) (start n : Nat) : Option (List Byte) :=
  if n = 0 ∨ start + n ≤ Config.memSize then some ((List.range n).map fun k => Memory.get m (start + k)) else none

/-! ### Registers -/

/-- V[r] (R20). -/
def State.reg (s : State) (r : Fin 16) : Byte := s.v[r.val]

/-- V[r] <- b (R20). -/
def State.setReg (s : State) (r : Fin 16) (b : Byte) : State := { s with v := s.v.set r.val b }

/-- I <- w (R30). -/
def State.setI (s : State) (w : Word) : State := { s with i := w }

/-- V[k], V[k+1], ... <- the bytes in ascending order (R175). -/
def loadFrom : Vector Byte 16 → Nat → List Byte → Vector Byte 16
  | v, _, [] => v
  | v, k, b :: bs => loadFrom (v.setIfInBounds k b) (k + 1) bs

/-- V[0..] <- the bytes (R175). -/
def State.setRegs (s : State) (bytes : List Byte) : State := { s with v := loadFrom s.v 0 bytes }

/-- V[0..x], ascending (R174). -/
def State.regBlock (s : State) (x : Nat) : List Byte := s.v.toList.take (x + 1)

/-- DT <- b (R35). -/
def State.setDt (s : State) (b : Byte) : State := { s with dt := b }

/-- ST <- b (R35). -/
def State.setSt (s : State) (b : Byte) : State := { s with st := b }

/-- MEM replaced whole. -/
def State.setMem (s : State) (m : Memory) : State := { s with mem := m }

/-! ### Program counter: all arithmetic is modulo 65536 (R27) -/

/-- PC <- w (R28: not masked). -/
def State.setPc (s : State) (w : Word) : State := { s with pc := w }

/-- The fetch advance (R102), which is also what a skip adds (R154). -/
def State.advance (s : State) : State := s.setPc (s.pc + 2#16)

/-- PC <- PC + 2 when the condition holds (R154 to R159). -/
def State.skipIf (s : State) (c : Bool) : State := if c then s.advance else s

/-- The key wait's rewind (R183). -/
def State.rewind (s : State) : State := s.setPc (s.pc - 2#16)

/-! ### Call stack (R31 to R33) -/

/-- Push (R32); `none` when SP = 16. -/
def State.push (s : State) (w : Word) : Option State :=
  if h : s.sp.val < 16 then
    some { s with stack := s.stack.set s.sp.val w, sp := ⟨s.sp.val + 1, by omega⟩ }
  else none

/-- Pop (R33): the value and the state with the slot left as it was; `none` when SP = 0. -/
def State.pop (s : State) : Option (Word × State) :=
  if h : s.sp.val = 0 then none
  else
    have hs := s.sp.isLt
    some (s.stack[s.sp.val - 1], { s with sp := ⟨s.sp.val - 1, by omega⟩ })

/-! ### Framebuffer (R37) -/

/-- FB[k], k in 0..2047 (R37); false for any other number. -/
def cell (fb : Framebuffer) (k : Nat) : Bool :=
  if h : k / Config.fbWidth < 32 then fb[k / Config.fbWidth].getLsbD (k % Config.fbWidth) else false

/-- FB[k] <- FB[k] ^ 1 (R141). -/
def toggle (fb : Framebuffer) (k : Nat) : Framebuffer :=
  if h : k / Config.fbWidth < 32 then
    fb.set (k / Config.fbWidth) (fb[k / Config.fbWidth] ^^^ BitVec.twoPow 64 (k % Config.fbWidth))
  else fb

/-- All 2048 cells 0 (R140). -/
def blankScreen : Framebuffer := Vector.replicate 32 0#64

/-- The framebuffer replaced and UPD set: every mutation sets the flag (R36, R144). -/
def State.show (s : State) (fb : Framebuffer) : State := { s with fb := fb, upd := true }

/-! ### Keypad (R38) -/

/-- KEY[k], k in 0..15; false for any other number. -/
def State.keyDown (s : State) (k : Nat) : Bool := if h : k < 16 then s.key[k] else false

/-- The least k with KEY[k] = 1 (R183). -/
def State.firstKey (s : State) : Option Nat := s.key.toList.findIdx? id

/-! ### Random input (R41, R132; log 9) -/

/-- The random byte of this step: the host's, if it has supplied one, else the environment's free value. -/
def State.randomByte (s : State) : Byte := s.rndIn.headD (Config.randomByte s.draws)

/-- The draw is used up: the next one is a fresh one. -/
def State.drawn (s : State) : State := { s with rndIn := s.rndIn.tail, draws := s.draws + 1 }

/-! ### Faults (R210 to R220) -/

/-- Raising a fault ends the step; no statement after it runs (R9). -/
def raise (f : Fault) : Host.Outcome State Fault Refusal := .fault f

/-- TAKING A FAULT: the state a faulting step leaves, from the state before the step (R214, R215, decisions D7 and
D8). No cause register, no saved PC, no stack push, no mode and no transfer of control (R219): a fault of the fetch
leaves everything as it was, any later one leaves everything but the fetch advance. -/
def takeFault (f : Fault) (s : State) : State :=
  match f with
  | .pcOutOfBounds _ => s
  | .invalidRegister _ => s.advance
  | .invalidKey _ => s.advance
  | .invalidOpcode _ => s.advance
  | .indexOutOfBounds _ => s.advance
  | .framebufferOutOfBounds _ => s.advance
  | .stackOverflow => s.advance
  | .stackUnderflow => s.advance

/-- The code numbers of R211 (decision D10). -/
def faultCode : Fault → Nat
  | .invalidRegister _ => 1
  | .invalidKey _ => 2
  | .invalidOpcode _ => 3
  | .indexOutOfBounds _ => 4
  | .framebufferOutOfBounds _ => 5
  | .stackOverflow => 6
  | .stackUnderflow => 7
  | .pcOutOfBounds _ => 8

/-- The 16-bit info values of R211 (decision D10). -/
def faultInfo : Fault → Word
  | .invalidRegister k => BitVec.ofNat 16 k
  | .invalidKey b => b.setWidth 16
  | .invalidOpcode w => w
  | .indexOutOfBounds w => w
  | .framebufferOutOfBounds k => BitVec.ofNat 16 k
  | .stackOverflow => 0#16
  | .stackUnderflow => 0#16
  | .pcOutOfBounds w => w

/-! ### Fetch, decode, dispatch (R101, R103, R104) -/

/-- The fetch of the word at PC (R101). -/
def fetch (s : State) : Except Fault Word :=
  match Memory.readWord s.mem s.pc.toNat with
  | some w => .ok w
  | none => .error (.pcOutOfBounds s.pc)

/-- The instruction at PC, or the fault that fetching or dispatching it raises, in that order (R108). -/
def fetchInstr (s : State) : Except Fault Instr :=
  match fetch s with
  | .error f => .error f
  | .ok w =>
    match decodeWord w with
    | some i => .ok i
    | none => .error (.invalidOpcode w)

end Sys2Proof.Machine
end

