-- ==== Sys2Proof/Machine/Operands.lean ====
section
/-!
DEFINITION. The operand forms of R83 and R84: register operands with the check of R23, immediates zero-extended and
never sign-extended or scaled, the key operand of EX9E and EXA1, and the ranges of bytes at I.
-/

namespace Sys2Proof.Machine

/-- A register operand X: an index that does not "resolve to 0–15" raises InvalidRegister (R23), before anything
else the handler checks (R108). -/
def withReg (x : RegIndex) (k : Fin 16 → Host.Outcome State Fault Refusal) : Host.Outcome State Fault Refusal :=
  if h : x < 16 then k ⟨x, h⟩ else raise (.invalidRegister x)

/-- Two register operands, X checked before Y (R108, R217). -/
def withRegs (x y : RegIndex) (k : Fin 16 → Fin 16 → Host.Outcome State Fault Refusal) :
    Host.Outcome State Fault Refusal :=
  withReg x fun rx => withReg y fun ry => k rx ry

/-- NNN zero-extended to 16 bits (R84). -/
def addrOperand (nnn : Addr12) : Word := nnn.setWidth 16

/-- An 8-bit register value zero-extended to 16 bits (R153, R171, R172). -/
def wide (b : Byte) : Word := b.setWidth 16

/-- The key operand of EX9E and EXA1: V[X], not masked; above 15 it raises InvalidKey (R158, R159). -/
def withKey (s : State) (rx : Fin 16) (k : Nat → Host.Outcome State Fault Refusal) : Host.Outcome State Fault Refusal :=
  if 15 < (s.reg rx).toNat then raise (.invalidKey (s.reg rx)) else k (s.reg rx).toNat

/-- The `n` bytes at I, at I + 0 to I + (n-1) with no wrap (R68); IndexOutOfBounds(I) when any lies above 4095. -/
def withBytesAtI (s : State) (n : Nat) (k : List Byte → Host.Outcome State Fault Refusal) :
    Host.Outcome State Fault Refusal :=
  match Memory.readRange s.mem s.i.toNat n with
  | some bytes => k bytes
  | none => raise (.indexOutOfBounds s.i)

/-- The bytes stored at I, I + 1, ... with the whole range checked first (R68, R173, R174); IndexOutOfBounds(I) when
any lies above 4095, and then nothing is written. -/
def storeAtI (s : State) (bytes : List Byte) : Host.Outcome State Fault Refusal :=
  match Memory.writeRange s.mem bytes s.i.toNat with
  | some m => .next (s.setMem m)
  | none => raise (.indexOutOfBounds s.i)

end Sys2Proof.Machine
end

