-- ==== Sys2Proof/Machine/Flags.lean ====
section
/-!
DEFINITION. The flag computations of R29 and the way a result and a flag are written (R120). There is no flag
register: the flag is the value 0 or 1 left in VF by 8XY4, 8XY5, 8XY6, 8XY7, 8XYE and DXYN (R21).
-/

namespace Sys2Proof.Machine

/-- A flag as the byte VF holds (R21, R29). -/
def flagByte (c : Bool) : Byte := if c then 1#8 else 0#8

/-- Carry out of the 8-bit addition (R127). -/
def carryOf (a b : Byte) : Bool := decide (255 < a.toNat + b.toNat)

/-- Not-borrow of `a - b`: 1 when the minuend is greater than or equal to the subtrahend (R128, R130). -/
def notBorrowOf (a b : Byte) : Bool := decide (b.toNat ≤ a.toNat)

/-- The bit a right shift puts out (R129). -/
def bitOutRight (a : Byte) : Bool := a.getLsbD 0

/-- The bit a left shift puts out (R131). -/
def bitOutLeft (a : Byte) : Bool := a.getLsbD 7

/-- The parameter VF_ORDER at the spec's choice (R29, R120, decision D5; log 5). -/
def vfOrder : Config.VfOrder := .flagLast

/-- The flag written to VF. -/
def State.setFlag (s : State) (c : Bool) : State := s.setReg Config.flagReg (flagByte c)

/-- A result written to V[rx] and a flag to VF, in the order of VF_ORDER (R120): with the flag last, VF ends holding
the flag when X = F. -/
def State.setRegFlag (s : State) (rx : Fin 16) (result : Byte) (flag : Bool) : State :=
  match vfOrder with
  | .flagLast => (s.setReg rx result).setFlag flag
  | .resultLast => (s.setFlag flag).setReg rx result

end Sys2Proof.Machine
end

