-- ==== Sys2Proof/Machine/Alu.lean ====
section
/-!
DEFINITION. The meanings of spec/41_alu.md: 6XNN, 7XNN, 8XY0 to 8XY7, 8XYE, CXNN. Each runs with PC already advanced
(R105), reads every operand before it writes (R120), and cannot fault on a decoded instruction.
-/

namespace Sys2Proof.Machine

/-- 6XNN (R121). -/
def execLdByte (x : RegIndex) (nn : Byte) (s : State) : Host.Outcome State Fault Refusal :=
  withReg x fun rx => .next (s.setReg rx nn)

/-- 7XNN (R122): wraps, and sets no flag. -/
def execAddByte (x : RegIndex) (nn : Byte) (s : State) : Host.Outcome State Fault Refusal :=
  withReg x fun rx => .next (s.setReg rx (s.reg rx + nn))

/-- 8XY0 (R123). -/
def execLdReg (x y : RegIndex) (s : State) : Host.Outcome State Fault Refusal :=
  withRegs x y fun rx ry => .next (s.setReg rx (s.reg ry))

/-- 8XY1 (R124): VF is not reset. -/
def execOrReg (x y : RegIndex) (s : State) : Host.Outcome State Fault Refusal :=
  withRegs x y fun rx ry => .next (s.setReg rx (s.reg rx ||| s.reg ry))

/-- 8XY2 (R125): VF is not reset. -/
def execAndReg (x y : RegIndex) (s : State) : Host.Outcome State Fault Refusal :=
  withRegs x y fun rx ry => .next (s.setReg rx (s.reg rx &&& s.reg ry))

/-- 8XY3 (R126): VF is not reset. -/
def execXorReg (x y : RegIndex) (s : State) : Host.Outcome State Fault Refusal :=
  withRegs x y fun rx ry => .next (s.setReg rx (s.reg rx ^^^ s.reg ry))

/-- 8XY4 (R127): no carry-in; VF is the carry out. -/
def execAddReg (x y : RegIndex) (s : State) : Host.Outcome State Fault Refusal :=
  withRegs x y fun rx ry => .next (s.setRegFlag rx (s.reg rx + s.reg ry) (carryOf (s.reg rx) (s.reg ry)))

/-- 8XY5 (R128): VF is the not-borrow of V[X] - V[Y]. -/
def execSubReg (x y : RegIndex) (s : State) : Host.Outcome State Fault Refusal :=
  withRegs x y fun rx ry => .next (s.setRegFlag rx (s.reg rx - s.reg ry) (notBorrowOf (s.reg rx) (s.reg ry)))

/-- 8XY6 (R129): a logical shift of V[X]; V[Y] is neither read nor written (R88). -/
def execShr (x : RegIndex) (_y : Nibble) (s : State) : Host.Outcome State Fault Refusal :=
  withReg x fun rx => .next (s.setRegFlag rx (s.reg rx >>> 1) (bitOutRight (s.reg rx)))

/-- 8XY7 (R130): VF is the not-borrow of V[Y] - V[X]. -/
def execSubnReg (x y : RegIndex) (s : State) : Host.Outcome State Fault Refusal :=
  withRegs x y fun rx ry => .next (s.setRegFlag rx (s.reg ry - s.reg rx) (notBorrowOf (s.reg ry) (s.reg rx)))

/-- 8XYE (R131); V[Y] is neither read nor written (R88). -/
def execShl (x : RegIndex) (_y : Nibble) (s : State) : Host.Outcome State Fault Refusal :=
  withReg x fun rx => .next (s.setRegFlag rx (s.reg rx <<< 1) (bitOutLeft (s.reg rx)))

/-- CXNN (R132): the step's random byte masked by NN; the draw is used up, so the next one is fresh (D2). -/
def execRnd (x : RegIndex) (nn : Byte) (s : State) : Host.Outcome State Fault Refusal :=
  withReg x fun rx => .next (s.drawn.setReg rx (s.randomByte &&& nn))

end Sys2Proof.Machine
end

