-- ==== Sys2Proof/Machine/Control.lean ====
section
/-!
DEFINITION. The meanings of spec/43_control_flow.md: 1NNN, 2NNN, 00EE, BNNN and the skips. PC is already past the
instruction (R105); no target is checked when the jump executes (R160).
-/

namespace Sys2Proof.Machine

/-- 1NNN (R150). -/
def execJp (nnn : Addr12) (s : State) : Host.Outcome State Fault Refusal := .next (s.setPc (addrOperand nnn))

/-- 2NNN (R151): pushes the advanced PC. -/
def execCall (nnn : Addr12) (s : State) : Host.Outcome State Fault Refusal :=
  match s.push s.pc with
  | some t => .next (t.setPc (addrOperand nnn))
  | none => raise .stackOverflow

/-- 00EE (R152). -/
def execRet (s : State) : Host.Outcome State Fault Refusal :=
  match s.pop with
  | some (w, t) => .next (t.setPc w)
  | none => raise .stackUnderflow

/-- BNNN (R153): the register is always V0; the sum is not reduced modulo 4096. -/
def execJpV0 (nnn : Addr12) (s : State) : Host.Outcome State Fault Refusal :=
  .next (s.setPc (addrOperand nnn + wide (s.reg 0)))

/-- 3XNN (R154). -/
def execSeByte (x : RegIndex) (nn : Byte) (s : State) : Host.Outcome State Fault Refusal :=
  withReg x fun rx => .next (s.skipIf (s.reg rx == nn))

/-- 4XNN (R155). -/
def execSneByte (x : RegIndex) (nn : Byte) (s : State) : Host.Outcome State Fault Refusal :=
  withReg x fun rx => .next (s.skipIf (s.reg rx != nn))

/-- 5XY0 (R156). -/
def execSeReg (x y : RegIndex) (s : State) : Host.Outcome State Fault Refusal :=
  withRegs x y fun rx ry => .next (s.skipIf (s.reg rx == s.reg ry))

/-- 9XY0 (R157). -/
def execSneReg (x y : RegIndex) (s : State) : Host.Outcome State Fault Refusal :=
  withRegs x y fun rx ry => .next (s.skipIf (s.reg rx != s.reg ry))

/-- EX9E (R158): V[X] is not masked to 4 bits. -/
def execSkp (x : RegIndex) (s : State) : Host.Outcome State Fault Refusal :=
  withReg x fun rx => withKey s rx fun k => .next (s.skipIf (s.keyDown k))

/-- EXA1 (R159): V[X] above 15 does not count as "not pressed". -/
def execSknp (x : RegIndex) (s : State) : Host.Outcome State Fault Refusal :=
  withReg x fun rx => withKey s rx fun k => .next (s.skipIf (!s.keyDown k))

end Sys2Proof.Machine
end

