-- ==== Sys2Proof/Machine/Display.lean ====
section
/-!
DEFINITION. The meanings of spec/42_display.md: 00E0 and DXYN.
-/

namespace Sys2Proof.Machine

/-- 00E0 (R140): UPD is set even if nothing changed. -/
def execCls (s : State) : Host.Outcome State Fault Refusal := .next (s.show blankScreen)

/-- The pixel indices of the 1 bits of one sprite row at origin column `x0` and screen row `y`, left to right: bit 7 is
the leftmost pixel (R142), columns above 63 and rows below the screen are clipped (R141). -/
def rowCells (x0 y : Nat) (b : Byte) : List Nat :=
  if y < Config.fbHeight then
    ((List.range 8).filter fun c => decide (x0 + c < Config.fbWidth) && b.getLsbD (7 - c)).map
      fun c => y * Config.fbWidth + (x0 + c)
  else []

/-- The pixel indices of a sprite, row after row downward (R141, R142). -/
def spriteCells (x0 : Nat) : Nat → List Byte → List Nat
  | _, [] => []
  | y, b :: rows => rowCells x0 y b ++ spriteCells x0 (y + 1) rows

/-- One XOR of a draw: the cell is toggled, and a cell that was on makes the draw a collision (R141, R143). -/
def plot (d : Framebuffer × Bool) (k : Nat) : Framebuffer × Bool := (toggle d.1 k, d.2 || cell d.1 k)

/-- The whole draw over the given cells: the framebuffer and the collision of this call alone (R143). -/
def plotAll (fb : Framebuffer) (cells : List Nat) : Framebuffer × Bool := cells.foldl plot (fb, false)

/-- The effects of a draw: the framebuffer, UPD unconditionally, and VF last (R141). -/
def State.draw (s : State) (cells : List Nat) : State :=
  (s.show (plotAll s.fb cells).1).setFlag (plotAll s.fb cells).2

/-- DXYN (R141). The origin wraps (mod 64, mod 32) and is read before VF is written (D6); all N sprite bytes are
checked before any effect, clipped rows too (D9); a pixel index above 2047 is checked for, though none arises. -/
def execDrw (x y : RegIndex) (n : Nibble) (s : State) : Host.Outcome State Fault Refusal :=
  withRegs x y fun rx ry => withBytesAtI s n.toNat fun rows =>
    let cells := spriteCells ((s.reg rx).toNat % Config.fbWidth) ((s.reg ry).toNat % Config.fbHeight) rows
    match cells.find? (fun k => decide (Config.fbWidth * Config.fbHeight ≤ k)) with
    | some k => raise (.framebufferOutOfBounds k)
    | none => .next (s.draw cells)

end Sys2Proof.Machine
end

