-- ==== Sys2Proof/Machine/Index.lean ====
section
/-!
DEFINITION. The meanings of spec/44_index_memory.md: ANNN, FX1E, FX29, FX33, FX55, FX65. None touches PC or a flag.
-/

namespace Sys2Proof.Machine

/-- ANNN (R170). -/
def execLdI (nnn : Addr12) (s : State) : Host.Outcome State Fault Refusal := .next (s.setI (addrOperand nnn))

/-- FX1E (R171): modulo 65536, no flag. -/
def execAddI (x : RegIndex) (s : State) : Host.Outcome State Fault Refusal :=
  withReg x fun rx => .next (s.setI (s.i + wide (s.reg rx)))

/-- FX29 (R172): V[X] is not masked to 4 bits. -/
def execLdF (x : RegIndex) (s : State) : Host.Outcome State Fault Refusal :=
  withReg x fun rx => .next (s.setI (BitVec.ofNat 16 Config.fontBase + 5#16 * wide (s.reg rx)))

/-- The three decimal digits of a byte, hundreds first, each in a byte of its own (R173). -/
def bcdDigits (b : Byte) : List Byte :=
  [BitVec.ofNat 8 (b.toNat / 100), BitVec.ofNat 8 (b.toNat / 10 % 10), BitVec.ofNat 8 (b.toNat % 10)]

/-- FX33 (R173). -/
def execLdB (x : RegIndex) (s : State) : Host.Outcome State Fault Refusal :=
  withReg x fun rx => storeAtI s (bcdDigits (s.reg rx))

/-- FX55 (R174): I is left unmodified. -/
def execStoreRegs (x : RegIndex) (s : State) : Host.Outcome State Fault Refusal :=
  withReg x fun rx => storeAtI s (s.regBlock rx.val)

/-- FX65 (R175): I is left unmodified. -/
def execLoadRegs (x : RegIndex) (s : State) : Host.Outcome State Fault Refusal :=
  withReg x fun rx => withBytesAtI s (rx.val + 1) fun bytes => .next (s.setRegs bytes)

end Sys2Proof.Machine
end

