-- ==== Sys2Proof/Machine/Timer.lean ====
section
/-!
DEFINITION. The meanings of spec/45_timers_keywait.md: FX07, FX15, FX18, FX0A.
-/

namespace Sys2Proof.Machine

/-- FX07 (R180). -/
def execLdVxDt (x : RegIndex) (s : State) : Host.Outcome State Fault Refusal :=
  withReg x fun rx => .next (s.setReg rx s.dt)

/-- FX15 (R181). -/
def execLdDtVx (x : RegIndex) (s : State) : Host.Outcome State Fault Refusal :=
  withReg x fun rx => .next (s.setDt (s.reg rx))

/-- FX18 (R182). -/
def execLdStVx (x : RegIndex) (s : State) : Host.Outcome State Fault Refusal :=
  withReg x fun rx => .next (s.setSt (s.reg rx))

/-- FX0A (R183): the lowest pressed key, or PC back to the instruction itself. KEY is not modified (D14). -/
def execLdVxK (x : RegIndex) (s : State) : Host.Outcome State Fault Refusal :=
  withReg x fun rx =>
    match s.firstKey with
    | some k => .next (s.setReg rx (BitVec.ofNat 8 k))
    | none => .next s.rewind

end Sys2Proof.Machine
end

