-- ==== Sys2Proof/Machine/Step.lean ====
section
/-!
DEFINITION. STEP (R100): fetch, advance, decode, dispatch, execute; exactly one instruction, with no tick of the
timers.
-/

namespace Sys2Proof.Machine

/-- One STEP (R100 to R105): the instruction at PC runs with PC already advanced past it. -/
def step (s : State) : Host.Outcome State Fault Refusal :=
  match fetchInstr s with
  | .error f => raise f
  | .ok i => exec i s.advance

/-- The state with one table row's instruction stored at PC, where `step` fetches next (R101): its two bytes, high
byte first. Where PC is past the last fetchable address there is no place for it and nothing changes. -/
def State.withFetchWord (s : State) (nbits w : Nat) : State :=
  match Memory.writeRange s.mem (tableBytes nbits w) s.pc.toNat with
  | some m => s.setMem m
  | none => s

end Sys2Proof.Machine
end

