-- ==== Sys2Proof/Machine/HostOps.lean ====
section
/-!
DEFINITION. The host interface of spec/50_host_interface.md: the closed list of operations a host can perform between
steps (R190), each one atomic transition with a result.
-/

namespace Sys2Proof.Machine

/-- The operations and observations of R190. A key index is "any integer the host supplies" (R193). -/
inductive HostOp
  | step (rnd : Byte)
  | tick
  | keyPress (k : Int)
  | keyRelease (k : Int)
  | loadRom (bytes : List Byte)
  | reset
  | clearUpdated
  | readFb
  | readUpdated
  | readBeep
  | readDt
  | readSt
  deriving DecidableEq, Repr

/-- What an operation answers: success, a fault of STEP (R211), one of the two failures of R213, or an observation. -/
inductive HostResult
  | ok
  | fault (f : Fault)
  | romTooLarge
  | fontLoadFailure
  | noMeaning (r : Refusal)
  | cells (fb : List Bool)
  | flag (b : Bool)
  | value (b : Byte)
  deriving DecidableEq, Repr

/-- STEP(rnd) (R191): `rnd` is the random byte of this step alone; a step of any other instruction than CXNN ignores
it (R132), so what is left of it is dropped. -/
def stepWith (rnd : Byte) (s : State) : Host.Outcome State Fault Refusal :=
  match step { s with rndIn := [rnd] } with
  | .next t => .next { t with rndIn := s.rndIn }
  | .fault f => .fault f
  | .refused r => .refused r

/-- STEP as the host sees it: the state it leaves and the result. After a fault the state is that of R214 or R215, and
there is no latch: a further STEP runs from it (R216). -/
def hostStep (rnd : Byte) (s : State) : State × HostResult :=
  match stepWith rnd s with
  | .next t => (t, .ok)
  | .fault f => (takeFault f s, .fault f)
  | .refused r => (s, .noMeaning r)

/-- "decrements ... by 1 if ... currently nonzero (saturating)" (R192). -/
def countDown (b : Byte) : Byte := if 0 < b.toNat then b - 1#8 else b

/-- TICK (R192): both timers, independently; nothing else. -/
def tick (s : State) : State := { s with dt := countDown s.dt, st := countDown s.st }

/-- KEY[k] <- b for k in 0..15; any other index is silently ignored (R193, R194). -/
def setKey (k : Int) (b : Bool) (s : State) : State :=
  if 0 ≤ k ∧ k < 16 then { s with key := s.key.setIfInBounds k.toNat b } else s

/-- LOAD_ROM (R195): `MemWriteRange(bytes, 0x200)`, whole or nothing. -/
def loadRom (bytes : List Byte) (s : State) : State × HostResult :=
  match Memory.writeRange s.mem bytes Config.progStart with
  | some m => (s.setMem m, .ok)
  | none => (s, .romTooLarge)

/-- Memory with every byte zero, before the font is loaded (R240). -/
def zeroMemory : Memory := Memory.putAll [] Config.fontBase (List.replicate Config.fontLen 0#8)

/-- Construction, `new()` (R200, R240): all state zero, PC at 0x200, and the font loaded by
`MemWriteRange(FONT, 0x050)`; `none` is the font-load failure, which does not occur. -/
def construct : Option State :=
  match Memory.writeRange zeroMemory font Config.fontBase with
  | some m => some { State.reset with mem := m }
  | none => none

/-- RESET (R199): "identical effect [to new()]". The environment's random source is not reset with the machine (R41):
the two fields of the model's own that stand for it stay (log 9). -/
def reset (s : State) : State × HostResult :=
  match construct with
  | some t => ({ t with rndIn := s.rndIn, draws := s.draws }, .ok)
  | none => (s, .fontLoadFailure)

/-- READ_FB (R197): all 2048 cells in row-major order. -/
def readFb (s : State) : List Bool := (List.range 2048).map (cell s.fb)

/-- READ_BEEP (R198): ST > 0. -/
def beep (s : State) : Bool := decide (0 < s.st.toNat)

/-- One host operation (R190). -/
def perform (op : HostOp) (s : State) : State × HostResult :=
  match op with
  | .step rnd => hostStep rnd s
  | .tick => (tick s, .ok)
  | .keyPress k => (setKey k true s, .ok)
  | .keyRelease k => (setKey k false s, .ok)
  | .loadRom bytes => loadRom bytes s
  | .reset => reset s
  | .clearUpdated => ({ s with upd := false }, .ok)
  | .readFb => (s, .cells (readFb s))
  | .readUpdated => (s, .flag s.upd)
  | .readBeep => (s, .flag (beep s))
  | .readDt => (s, .value s.dt)
  | .readSt => (s, .value s.st)

/-- A finite run: any finite sequence of operations in the host's order (R201, D22). The run ends at the first fault (D11, U19); a
ROM that is too large is reported and the run goes on. -/
def runOps : List HostOp → State → Host.Outcome State Fault Refusal
  | [], s => .next s
  | op :: ops, s =>
    match perform op s with
    | (_, .fault f) => .fault f
    | (_, .noMeaning r) => .refused r
    | (t, _) => runOps ops t

/-! ### Runs without end (R201) -/

/-- A host's schedule without end: which operation comes `n`-th. It is the host's, and no part of State. -/
abbrev Schedule := Nat → HostOp

/-- The first `n` operations of a schedule. -/
def Schedule.start (h : Schedule) (n : Nat) : List HostOp := (List.range n).map h

/-- Where the first `n` operations of a schedule lead. -/
def Schedule.after (h : Schedule) (n : Nat) (s : State) : Host.Outcome State Fault Refusal := runOps (h.start n) s

/-- The schedule is an infinite run from `s`: no operation of it ends the run (R201, D11). -/
def Schedule.runsFrom (h : Schedule) (s : State) : Prop := ∀ n, ∃ t, h.after n s = .next t

/-- A premise on the host: from any moment on, an operation of this kind comes. -/
def Schedule.keepsDoing (h : Schedule) (kind : HostOp → Prop) : Prop := ∀ n, ∃ m, n ≤ m ∧ kind (h m)

/-- "that it eventually ticks" (R201). -/
def Schedule.keepsTicking (h : Schedule) : Prop := h.keepsDoing fun op => op = .tick

/-- "that it eventually presses a key" (R201), one of the 16 (R193). -/
def Schedule.keepsPressing (h : Schedule) : Prop := h.keepsDoing fun op => ∃ k : Fin 16, op = .keyPress k.val

/-- The host goes on stepping. -/
def Schedule.keepsStepping (h : Schedule) : Prop := h.keepsDoing fun op => ∃ rnd, op = .step rnd

end Sys2Proof.Machine
end

