-- ==== Sys2Proof/Machine/Ports.lean ====
section
/-!
DEFINITION. The port-level rendering of R203, "this spec's own" (D1): a request on the input ports as one operation,
and the output ports as functions of the state and of the last STEP's or LOAD_ROM's result. No other file depends on it.
-/

namespace Sys2Proof.Machine

/-- The input ports of R203, at the widths it tables. `romData k` is byte `k` of the stream rom_data. -/
structure PortRequest where
  op : BitVec 3
  keyIdx : Byte
  rnd : Byte
  romLen : BitVec 13
  romData : Nat → Byte

/-- The operand of LOAD_ROM: the first rom_len bytes of the stream (R203). The check of LOAD_ROM is one of the length
alone, before the first byte is written (R195). -/
def PortRequest.rom (q : PortRequest) : List Byte := (List.range q.romLen.toNat).map q.romData

/-- The operation a request asks for (R203, port `op`); 0 asks for none. -/
def requestOp (q : PortRequest) : Option HostOp :=
  match q.op.toNat with
  | 1 => some (.step q.rnd)
  | 2 => some .tick
  | 3 => some (.keyPress q.keyIdx.toNat)
  | 4 => some (.keyRelease q.keyIdx.toNat)
  | 5 => some .clearUpdated
  | 6 => some .reset
  | 7 => some (.loadRom q.rom)
  | _ => none

/-- The codes of R211 and R213 (D10): 0 for success. `noMeaning` is the model's own and has no code in the spec; no
operation answers it, and it is given 15, which is no code of R211 or R213. -/
def resultCode : HostResult → Nat
  | .ok => 0
  | .fault f => faultCode f
  | .romTooLarge => 9
  | .fontLoadFailure => 10
  | .noMeaning _ => 15
  | .cells _ => 0
  | .flag _ => 0
  | .value _ => 0

/-- The info value of a fault is R211's, and so is the 0 of a STEP or LOAD_ROM that succeeds. DESIGN CHOICE (log 26): for
RomTooLarge and a font-load failure, codes 9 and 10, the spec gives no info value, and the model shows 0; so it does for
an observation and for `noMeaning`, whose info no port shows. Unsafe for claims about fault_info after code 9. -/
def resultInfo : HostResult → Word
  | .ok => 0#16
  | .fault f => faultInfo f
  | .romTooLarge => 0#16
  | .fontLoadFailure => 0#16
  | .noMeaning _ => 0#16
  | .cells _ => 0#16
  | .flag _ => 0#16
  | .value _ => 0#16

/-- The output ports of R203. -/
structure PortView where
  fault : BitVec 4
  faultInfo : Word
  fb : List Bool
  updated : Bool
  beep : Bool
  dt : Byte
  st : Byte
  deriving DecidableEq, Repr

/-- What the output ports show, `last` being the result of the last STEP or LOAD_ROM. -/
def portView (s : State) (last : HostResult) : PortView :=
  { fault := BitVec.ofNat 4 (resultCode last), faultInfo := resultInfo last, fb := readFb s
    updated := s.upd, beep := beep s, dt := s.dt, st := s.st }

/-- One request performed (R203): the new state, and the result the fault ports then show. Only STEP and LOAD_ROM
change what they show. -/
def serve (q : PortRequest) (s : State) (last : HostResult) : State × HostResult :=
  match requestOp q with
  | none => (s, last)
  | some op =>
    match op with
    | .step rnd => hostStep rnd s
    | .loadRom bytes => loadRom bytes s
    | .tick => ((perform .tick s).1, last)
    | .keyPress k => ((perform (.keyPress k) s).1, last)
    | .keyRelease k => ((perform (.keyRelease k) s).1, last)
    | .reset => ((perform .reset s).1, last)
    | .clearUpdated => ((perform .clearUpdated s).1, last)
    | .readFb => (s, last)
    | .readUpdated => (s, last)
    | .readBeep => (s, last)
    | .readDt => (s, last)
    | .readSt => (s, last)

end Sys2Proof.Machine
end

