-- ==== Sys2Proof/Safety.lean ====
section
/-!
DEFINITION. The terms claims about runs use: the machine's invariant, the end of a run, and a safe run.
-/

namespace Sys2Proof.Machine

/-- What every operation keeps: memory in canonical form, PC and the live return addresses inside the ranges R27 and
R152 derive. PC is at most 0x10FE, the largest BNNN target; a return address is pc0 + 2 with pc0 ≤ 4094. -/
abbrev State.Inv (s : State) : Prop :=
  s.mem.wf ∧ s.pc.toNat ≤ 0x10FE ∧
    ∀ k : Fin 16, k.val < s.sp.val → 2 ≤ (s.stack[k.val]).toNat ∧ (s.stack[k.val]).toNat ≤ 4096

/-- The self-jump: the word at PC is 1NNN with NNN = PC, the spec's recommended end of a run (R107, D20; log 19). It says
nothing of the timers, the keys or the host. -/
def State.selfJump (s : State) : Prop :=
  s.pc.toNat ≤ 4094 ∧ s.mem.get s.pc.toNat = BitVec.ofNat 8 (0x10 + s.pc.toNat / 256) ∧
    s.mem.get (s.pc.toNat + 1) = BitVec.ofNat 8 (s.pc.toNat % 256)

/-- A step that ends in a fault (R210). -/
def State.faults (s : State) : Prop := ∃ f, step s = .fault f

/-- A safe run: every operation of it succeeds, up to its last state. A run that faults is never a success (D11). -/
def safeRun (ops : List HostOp) (s : State) : Prop := ∃ t, runOps ops s = .next t

end Sys2Proof.Machine
end

