-- ==== Sys2Proof/Certificates/Slice0/Obligations.lean ====
section
/-!
DEFINITION. The statements for the provers: what the numbered rules of spec/ say, about this model. The statements about
`exec` run with PC already advanced (R105): `s.pc` is then pc0 + 2. Instructions are written with register operands
`x : Fin 16`; an index outside 0..15 has statements of its own. The Encoding line of an instruction rule refers to
R86, whose bit patterns the spec marks as general knowledge (log 1): the encoding statements say those.
-/

open Sys2Proof Sys2Proof.Machine

namespace Sys2Proof.Statement

/-! ### What is left unchanged -/

/-- Every byte of memory reads as before. -/
def SameMemory (s t : State) : Prop := ∀ a, t.mem.read a = s.mem.read a

/-- Every byte of memory outside the `n` bytes from `start` reads as before. -/
def SameMemoryOutside (start n : Nat) (s t : State) : Prop :=
  ∀ a, a < start ∨ start + n ≤ a → t.mem.read a = s.mem.read a

def SameRegs (s t : State) : Prop := ∀ k : Fin 16, t.reg k = s.reg k

def SameRegsBut (written : Fin 16 → Prop) (s t : State) : Prop := ∀ k : Fin 16, ¬written k → t.reg k = s.reg k

def SameStack (s t : State) : Prop := t.sp = s.sp ∧ t.stack = s.stack

def SameTimers (s t : State) : Prop := t.dt = s.dt ∧ t.st = s.st

def SameScreen (s t : State) : Prop := t.fb = s.fb ∧ t.upd = s.upd

/-- The model's own two fields that stand for the environment's random bytes (log 9). -/
def SameRandom (s t : State) : Prop := t.rndIn = s.rndIn ∧ t.draws = s.draws

/-- The devices of R223 but the display: the timers and the keypad; and the random source beside them. -/
def SameDevices (s t : State) : Prop := SameTimers s t ∧ t.key = s.key ∧ SameRandom s t

/-- Nothing changed but the named general registers. -/
def OnlyRegs (written : Fin 16 → Prop) (s t : State) : Prop :=
  SameRegsBut written s t ∧ t.i = s.i ∧ t.pc = s.pc ∧ SameMemory s t ∧ SameStack s t ∧ SameScreen s t ∧ SameDevices s t

/-- Nothing changed but PC. -/
def OnlyPc (s t : State) : Prop :=
  SameRegs s t ∧ t.i = s.i ∧ SameMemory s t ∧ SameStack s t ∧ SameScreen s t ∧ SameDevices s t

/-- Nothing changed but PC, SP and the stack slots. -/
def OnlyPcAndStack (s t : State) : Prop :=
  SameRegs s t ∧ t.i = s.i ∧ SameMemory s t ∧ SameScreen s t ∧ SameDevices s t

/-- Nothing changed but I. -/
def OnlyIndex (s t : State) : Prop :=
  SameRegs s t ∧ t.pc = s.pc ∧ SameMemory s t ∧ SameStack s t ∧ SameScreen s t ∧ SameDevices s t

/-- Nothing changed but the `n` bytes of memory from `start`. -/
def OnlyMemory (start n : Nat) (s t : State) : Prop :=
  SameRegs s t ∧ t.i = s.i ∧ t.pc = s.pc ∧ SameMemoryOutside start n s t ∧ SameStack s t ∧ SameScreen s t ∧ SameDevices s t

/-- Nothing changed but the timers. -/
def OnlyTimers (s t : State) : Prop :=
  SameRegs s t ∧ t.i = s.i ∧ t.pc = s.pc ∧ SameMemory s t ∧ SameStack s t ∧ SameScreen s t ∧ t.key = s.key ∧ SameRandom s t

/-- Nothing changed but the keypad. -/
def OnlyKeys (s t : State) : Prop :=
  SameRegs s t ∧ t.i = s.i ∧ t.pc = s.pc ∧ SameMemory s t ∧ SameStack s t ∧ SameScreen s t ∧ SameTimers s t ∧ SameRandom s t

/-! ### Classes of instructions -/

/-- The registers an instruction may write: its destination, and VF where it writes a flag (R21). -/
def mayWriteReg : Instr → Nat → Prop
  | .ldByte x _, k => k = x
  | .addByte x _, k => k = x
  | .ldReg x _, k => k = x
  | .orReg x _, k => k = x
  | .andReg x _, k => k = x
  | .xorReg x _, k => k = x
  | .rnd x _, k => k = x
  | .ldVxDt x, k => k = x
  | .ldVxK x, k => k = x
  | .addReg x _, k => k = x ∨ k = 15
  | .subReg x _, k => k = x ∨ k = 15
  | .shr x _, k => k = x ∨ k = 15
  | .subnReg x _, k => k = x ∨ k = 15
  | .shl x _, k => k = x ∨ k = 15
  | .drw _ _ _, k => k = 15
  | .loadRegs x, k => k ≤ x
  | _, _ => False

/-- 00E0 and DXYN (R144). -/
def isDisplay : Instr → Prop
  | .cls => True
  | .drw _ _ _ => True
  | _ => False

/-- FX33 and FX55 (R51). -/
def isStore : Instr → Prop
  | .ldB _ => True
  | .storeRegs _ => True
  | _ => False

/-- 2NNN and 00EE (R31). -/
def isStackOp : Instr → Prop
  | .call _ => True
  | .ret => True
  | _ => False

/-- ANNN, FX1E and FX29 (R30). -/
def isIndexOp : Instr → Prop
  | .ldI _ => True
  | .addI _ => True
  | .ldF _ => True
  | _ => False

/-- The instructions whose rule mentions PC: the ten of spec/43_control_flow.md and FX0A (R106, R183). -/
def mayWritePc : Instr → Prop
  | .jp _ => True
  | .call _ => True
  | .ret => True
  | .jpV0 _ => True
  | .seByte _ _ => True
  | .sneByte _ _ => True
  | .seReg _ _ => True
  | .sneReg _ _ => True
  | .skp _ => True
  | .sknp _ => True
  | .ldVxK _ => True
  | _ => False

/-- CXNN (R132). -/
def isRandom : Instr → Prop
  | .rnd _ _ => True
  | _ => False

/-- The first register operand, in the order X, Y, that is no register (R23, R108); Y of the shifts is no operand. -/
def badRegister : Instr → Option Nat
  | .cls => none
  | .ret => none
  | .jp _ => none
  | .call _ => none
  | .ldI _ => none
  | .jpV0 _ => none
  | .seReg x y => first x y
  | .ldReg x y => first x y
  | .orReg x y => first x y
  | .andReg x y => first x y
  | .xorReg x y => first x y
  | .addReg x y => first x y
  | .subReg x y => first x y
  | .subnReg x y => first x y
  | .sneReg x y => first x y
  | .drw x y _ => first x y
  | .seByte x _ => only x
  | .sneByte x _ => only x
  | .ldByte x _ => only x
  | .addByte x _ => only x
  | .shr x _ => only x
  | .shl x _ => only x
  | .rnd x _ => only x
  | .skp x => only x
  | .sknp x => only x
  | .ldVxDt x => only x
  | .ldVxK x => only x
  | .ldDtVx x => only x
  | .ldStVx x => only x
  | .addI x => only x
  | .ldF x => only x
  | .ldB x => only x
  | .storeRegs x => only x
  | .loadRegs x => only x
where
  only (x : Nat) : Option Nat := if x < 16 then none else some x
  first (x y : Nat) : Option Nat := if x < 16 then only y else some x

/-! ### The font -/

/-- FONT[0..79] as R62's table prints it, digit after digit, row 0 first (log 3). -/
def glyphBytes : List Byte :=
  [0xF0, 0x90, 0x90, 0x90, 0xF0] ++ [0x20, 0x60, 0x20, 0x20, 0x70] ++ [0xF0, 0x10, 0xF0, 0x80, 0xF0] ++
    [0xF0, 0x10, 0xF0, 0x10, 0xF0] ++ [0x90, 0x90, 0xF0, 0x10, 0x10] ++ [0xF0, 0x80, 0xF0, 0x10, 0xF0] ++
    [0xF0, 0x80, 0xF0, 0x90, 0xF0] ++ [0xF0, 0x10, 0x20, 0x40, 0x40] ++ [0xF0, 0x90, 0xF0, 0x90, 0xF0] ++
    [0xF0, 0x90, 0xF0, 0x10, 0xF0] ++ [0xF0, 0x90, 0xF0, 0x90, 0x90] ++ [0xE0, 0x90, 0xE0, 0x90, 0xE0] ++
    [0xF0, 0x80, 0x80, 0x80, 0xF0] ++ [0xE0, 0x90, 0x90, 0x90, 0xE0] ++ [0xF0, 0x80, 0xF0, 0x80, 0xF0] ++
    [0xF0, 0x80, 0xF0, 0x80, 0x80]

/-! ### The sprite of a draw -/

/-- DXYN with these operands XORs a 1 onto FB[k] (R141): some bit c of some row r of the sprite is 1, bit 7 being the
leftmost (R142, D18, log 4), and it lands on FB[k] without being clipped. -/
def spriteLit (s : State) (x y : Fin 16) (n : Nibble) (k : Nat) : Prop :=
  ∃ r c : Nat, ∃ b : Byte, r < n.toNat ∧ c < 8 ∧ s.mem.read (s.i.toNat + r) = some b ∧ b.getLsbD (7 - c) = true ∧
    (s.reg y).toNat % 32 + r ≤ 31 ∧ (s.reg x).toNat % 64 + c ≤ 63 ∧
    k = ((s.reg y).toNat % 32 + r) * 64 + ((s.reg x).toNat % 64 + c)

/-- Two states that agree on everything but stack slots at and above SP (R33, D13, U12). -/
def AgreeBelowSp (s t : State) : Prop :=
  (∀ k : Fin 16, k.val < s.sp.val → t.stack[k.val] = s.stack[k.val]) ∧ t = { s with stack := t.stack }

end Sys2Proof.Statement

open Sys2Proof.Statement

/-! ## Encoding -/

/-- Words written out bit by bit from the pattern column of R86, one for each of the families of spec/41 to spec/45,
decode to the instruction they stand for. The bit patterns are the spec's general knowledge (G1, log 1). -/
def Obligations.SpecWordsDecode : Prop :=
  decodeWord 0b0110101000101011 = some (.ldByte 10 0x2B) ∧ decodeWord 0b1000000100100100 = some (.addReg 1 2) ∧
    decodeWord 0b1101001100010101 = some (.drw 3 1 5) ∧ decodeWord 0b0010001100000000 = some (.call 0x300) ∧
    decodeWord 0b1110111110100001 = some (.sknp 15) ∧ decodeWord 0b1111010101010101 = some (.storeRegs 5) ∧
    decodeWord 0b1111011100001010 = some (.ldVxK 7) ∧ decodeWord 0b0000000011101110 = some .ret

/-- R81: the six fields are the stated bit slices of the word, with the two identities and the worked example. -/
def Obligations.FieldsAreTheBitSlices : Prop :=
  (∀ w : Word,
    (fieldsOf w).p.toNat = w.toNat / 4096 ∧ (fieldsOf w).x.toNat = w.toNat / 256 % 16 ∧
      (fieldsOf w).y.toNat = w.toNat / 16 % 16 ∧ (fieldsOf w).n.toNat = w.toNat % 16 ∧
      (fieldsOf w).nn.toNat = w.toNat % 256 ∧ (fieldsOf w).nnn.toNat = w.toNat % 4096 ∧
      (fieldsOf w).nn.toNat = (fieldsOf w).y.toNat * 16 + (fieldsOf w).n.toNat ∧
      (fieldsOf w).nnn.toNat = (fieldsOf w).x.toNat * 256 + (fieldsOf w).nn.toNat) ∧
    fieldsOf 0xABCD = { p := 0xA, x := 0xB, y := 0xC, n := 0xD, nn := 0xCD, nnn := 0xBCD }

/-- Decode and encode agree, for every well-formed instruction and whatever bytes follow it: no bit of an encoding is
dropped. -/
def Obligations.DecodeOfEncodeIsTheInstruction : Prop :=
  ∀ (i : Instr) (rest : List Byte), i.wellFormed = true → decode (encode i ++ rest) = .ok (i, rest)

/-- The other direction: a word that decodes is the encoding of the term it decodes to, and that is well formed. So no two
words decode to one term. Rests on the bit patterns and their exact match, general knowledge G1 and decision D4 (log 1),
and, for 8XY6 and 8XYE, on the term keeping the ignored Y (log 23): by R88 every Y selects the same instruction. -/
def Obligations.EncodeOfDecodeIsTheWord : Prop :=
  ∀ (w : Word) (i : Instr), decodeWord w = some i → i.wellFormed = true ∧ encodeWord i = w

/-- R86: a word is an instruction of a row iff (w & mask) = match. Hence the patterns are pairwise disjoint. -/
def Obligations.PatternsSelectTheInstruction : Prop :=
  (∀ (w : Word) (i : Instr), decodeWord w = some i → w &&& i.row.mask = i.row.pattern) ∧
    ∀ (w : Word) (i : Instr), w &&& i.row.mask = i.row.pattern → ∃ j, decodeWord w = some j ∧ j.row = i.row

/-- R89: the invalid words, exhaustively. -/
def Obligations.InvalidWordsAreExactlyTheTable : Prop :=
  ∀ w : Word, decodeWord w = none ↔
    (w.toNat / 4096 = 0 ∧ w.toNat % 4096 ≠ 0x0E0 ∧ w.toNat % 4096 ≠ 0x0EE) ∨
    (w.toNat / 4096 = 5 ∧ w.toNat % 16 ≠ 0) ∨
    (w.toNat / 4096 = 8 ∧ w.toNat % 16 ∈ [0x8, 0x9, 0xA, 0xB, 0xC, 0xD, 0xF]) ∨
    (w.toNat / 4096 = 9 ∧ w.toNat % 16 ≠ 0) ∨
    (w.toNat / 4096 = 0xE ∧ w.toNat % 256 ∉ [0x9E, 0xA1]) ∨
    (w.toNat / 4096 = 0xF ∧ w.toNat % 256 ∉ [0x07, 0x0A, 0x15, 0x18, 0x1E, 0x29, 0x33, 0x55, 0x65])

/-! ## The step -/

/-- R101: the fetch reads MEM[pc0]·256 + MEM[pc0+1] from any PC up to 4094; from a PC above 4094 the step raises
PcOutOfBounds(pc0) and leaves every piece of state unchanged, PC included. That an odd PC is no fault is decision D15
(log 14), that the fault carries pc0 is decision D10 (log 22), the state it leaves is R215's (log 7). -/
def Obligations.FetchReadsTwoBytesOrFaults : Prop :=
  ∀ s : State,
    (s.pc.toNat ≤ 4094 → ∃ w hi lo, fetch s = .ok w ∧ s.mem.read s.pc.toNat = some hi ∧
      s.mem.read (s.pc.toNat + 1) = some lo ∧ w.toNat = hi.toNat * 256 + lo.toNat) ∧
    (4094 < s.pc.toNat → step s = .fault (.pcOutOfBounds s.pc) ∧
      ∀ rnd, perform (.step rnd) s = (s, .fault (.pcOutOfBounds s.pc)))

/-- R100, R102, R105: when the word at PC decodes to i, a step is i run at the state with PC advanced by 2; nothing
else is added around it. -/
def Obligations.StepRunsTheDecodedInstruction : Prop :=
  ∀ (s : State) (w : Word) (i : Instr), s.mem.readWord s.pc.toNat = some w → decodeWord w = some i →
    step s = exec i { s with pc := s.pc + 2#16 }

/-- R104 with decision D7 (log 7): a word that matches no pattern raises InvalidOpcode(w), and the state it leaves differs
from the one before in PC = pc0 + 2 alone. -/
def Obligations.InvalidOpcodeChangesOnlyPc : Prop :=
  ∀ (s : State) (w : Word), s.mem.readWord s.pc.toNat = some w → decodeWord w = none →
    step s = .fault (.invalidOpcode w) ∧
      ∀ rnd, perform (.step rnd) s = ({ s with pc := s.pc + 2#16 }, .fault (.invalidOpcode w))

/-- R214 and R215 with decisions D7 and D8 (log 7): whatever fault a STEP reports, the state it leaves is the one before,
with PC advanced by 2 unless the fault is the fetch's. That PcOutOfBounds carries
PC is decision D10 (log 22). -/
def Obligations.FaultingStepLeavesOnlyPcAdvanced : Prop :=
  ∀ (s t : State) (rnd : Byte) (f : Fault), perform (.step rnd) s = (t, .fault f) →
    (4094 < s.pc.toNat → f = .pcOutOfBounds s.pc ∧ t = s) ∧
      (s.pc.toNat ≤ 4094 → (∀ w, f ≠ .pcOutOfBounds w) ∧ t = { s with pc := s.pc + 2#16 })

/-- Decision D2 and R191: STEP(rnd) of a CXNN uses the host's byte rnd, whatever byte that is; the byte is gone after. -/
def Obligations.StepUsesTheHostsRandomByte : Prop :=
  ∀ (s : State) (w : Word) (x : Fin 16) (nn rnd : Byte), s.mem.readWord s.pc.toNat = some w →
    decodeWord w = some (.rnd x.val nn) →
    ∃ t, perform (.step rnd) s = (t, .ok) ∧ t.reg x = rnd &&& nn ∧ t.pc = s.pc + 2#16 ∧ t.rndIn = s.rndIn ∧
      SameRegsBut (· = x) s t

/-! ## Immediate, register, arithmetic, shift and random instructions -/

/-- R121 and R123: 6XNN and 8XY0. -/
def Obligations.LoadsWriteTheOperand : Prop :=
  ∀ (s : State) (x y : Fin 16) (nn : Byte),
    (∃ t, exec (.ldByte x.val nn) s = .next t ∧ t.reg x = nn ∧ OnlyRegs (· = x) s t) ∧
      ∃ t, exec (.ldReg x.val y.val) s = .next t ∧ t.reg x = s.reg y ∧ OnlyRegs (· = x) s t

/-- R122: 7XNN wraps modulo 256 and sets no flag, not even on overflow. -/
def Obligations.AddImmediateWrapsWithoutFlag : Prop :=
  ∀ (s : State) (x : Fin 16) (nn : Byte), ∃ t, exec (.addByte x.val nn) s = .next t ∧
    (t.reg x).toNat = ((s.reg x).toNat + nn.toNat) % 256 ∧ OnlyRegs (· = x) s t

/-- R124, R125, R126: 8XY1, 8XY2, 8XY3, bit by bit; VF is not reset. -/
def Obligations.LogicWritesOnlyTheResult : Prop :=
  ∀ (s : State) (x y : Fin 16),
    (∃ t, exec (.orReg x.val y.val) s = .next t ∧ OnlyRegs (· = x) s t ∧
      ∀ b, (t.reg x).getLsbD b = ((s.reg x).getLsbD b || (s.reg y).getLsbD b)) ∧
    (∃ t, exec (.andReg x.val y.val) s = .next t ∧ OnlyRegs (· = x) s t ∧
      ∀ b, (t.reg x).getLsbD b = ((s.reg x).getLsbD b && (s.reg y).getLsbD b)) ∧
    ∃ t, exec (.xorReg x.val y.val) s = .next t ∧ OnlyRegs (· = x) s t ∧
      ∀ b, (t.reg x).getLsbD b = ((s.reg x).getLsbD b ^^ (s.reg y).getLsbD b)

/-- R127: 8XY4. VF is the carry out; with X = F it ends as the carry, which is decision D5 (log 5). -/
def Obligations.AddSetsTheCarry : Prop :=
  ∀ (s : State) (x y : Fin 16), ∃ t, exec (.addReg x.val y.val) s = .next t ∧
    (x ≠ 15 → (t.reg x).toNat = ((s.reg x).toNat + (s.reg y).toNat) % 256) ∧
    t.reg 15 = (if 255 < (s.reg x).toNat + (s.reg y).toNat then 1#8 else 0#8) ∧ OnlyRegs (fun k => k = x ∨ k = 15) s t

/-- R128 and R130: 8XY5 and 8XY7. VF is the not-borrow; with X = F it ends as the flag, which is decision D5 (log 5). -/
def Obligations.SubtractionsSetTheNotBorrow : Prop :=
  ∀ (s : State) (x y : Fin 16),
    (∃ t, exec (.subReg x.val y.val) s = .next t ∧
      (x ≠ 15 → (t.reg x).toNat = ((s.reg x).toNat + 256 - (s.reg y).toNat) % 256) ∧
      t.reg 15 = (if (s.reg y).toNat ≤ (s.reg x).toNat then 1#8 else 0#8) ∧ OnlyRegs (fun k => k = x ∨ k = 15) s t) ∧
    ∃ t, exec (.subnReg x.val y.val) s = .next t ∧
      (x ≠ 15 → (t.reg x).toNat = ((s.reg y).toNat + 256 - (s.reg x).toNat) % 256) ∧
      t.reg 15 = (if (s.reg x).toNat ≤ (s.reg y).toNat then 1#8 else 0#8) ∧ OnlyRegs (fun k => k = x ∨ k = 15) s t

/-- R129 and R131: 8XY6 and 8XYE, for every value of the ignored Y field. VF is the bit shifted out; with X = F it ends as
the flag, which is decision D5 (log 5). -/
def Obligations.ShiftsPutTheLostBitInVF : Prop :=
  ∀ (s : State) (x : Fin 16) (y : Nibble),
    (∃ t, exec (.shr x.val y) s = .next t ∧ (x ≠ 15 → (t.reg x).toNat = (s.reg x).toNat / 2) ∧
      t.reg 15 = (if (s.reg x).toNat % 2 = 1 then 1#8 else 0#8) ∧ OnlyRegs (fun k => k = x ∨ k = 15) s t) ∧
    ∃ t, exec (.shl x.val y) s = .next t ∧ (x ≠ 15 → (t.reg x).toNat = (s.reg x).toNat * 2 % 256) ∧
      t.reg 15 = (if 128 ≤ (s.reg x).toNat then 1#8 else 0#8) ∧ OnlyRegs (fun k => k = x ∨ k = 15) s t

/-- R132 with decision D2 (log 9): CXNN writes the masked random byte, which is the host's next byte where it has supplied
one, else the environment's free value, of which nothing is said; either is used once. -/
def Obligations.RandomIsTheMaskedByte : Prop :=
  ∀ (s : State) (x : Fin 16) (nn : Byte), ∃ t, exec (.rnd x.val nn) s = .next t ∧
    (∀ r rest, s.rndIn = r :: rest → t.reg x = r &&& nn ∧ t.rndIn = rest) ∧
    (s.rndIn = [] → t.reg x = Config.randomByte s.draws &&& nn ∧ t.rndIn = []) ∧
    (∀ b, nn.getLsbD b = false → (t.reg x).getLsbD b = false) ∧ t.draws = s.draws + 1 ∧
    SameRegsBut (· = x) s t ∧ t.i = s.i ∧ t.pc = s.pc ∧ SameMemory s t ∧ SameStack s t ∧ SameScreen s t ∧
    SameTimers s t ∧ t.key = s.key

/-- R132: "A step of any other instruction ignores rnd": the random source neither changes what another instruction does
nor is changed by it. -/
def Obligations.OnlyRandomReadsTheRandomInput : Prop :=
  ∀ (i : Instr) (s t : State) (q : List Byte) (d : Nat), ¬isRandom i → exec i s = .next t →
    SameRandom s t ∧ exec i { s with rndIn := q, draws := d } = .next { t with rndIn := q, draws := d }

/-! ## Display -/

/-- R140: 00E0 zeroes every cell and sets UPD, whatever they were; VF is not written. -/
def Obligations.ClearZeroesEveryCell : Prop :=
  ∀ s : State, ∃ t, exec .cls s = .next t ∧ (∀ k, k < 2048 → cell t.fb k = false) ∧ t.upd = true ∧
    SameRegs s t ∧ t.i = s.i ∧ t.pc = s.pc ∧ SameMemory s t ∧ SameStack s t ∧ SameDevices s t

/-- R141, R142, R143: the loop of DXYN does what the pixels say. FB[k] is XORed with the sprite's pixel there, VF is 1
exactly when some cell went from on to off in this call (the OR over all rows, C5, log 21), UPD is set whether or not a
pixel changed. Rests on D6 (operands read first, log 6) and D18 (bit order, log 4). -/
def Obligations.DrawXorsTheSpriteOntoTheScreen : Prop :=
  ∀ (s : State) (x y : Fin 16) (n : Nibble), n.toNat = 0 ∨ s.i.toNat + n.toNat ≤ 4096 →
    ∃ t, exec (.drw x.val y.val n) s = .next t ∧
      (∀ k, k < 2048 → (cell t.fb k = true ↔ ¬(cell s.fb k = true ↔ spriteLit s x y n k))) ∧
      ((∃ k, spriteLit s x y n k ∧ cell s.fb k = true) → t.reg 15 = 1#8) ∧
      ((¬∃ k, spriteLit s x y n k ∧ cell s.fb k = true) → t.reg 15 = 0#8) ∧ t.upd = true ∧
      SameRegsBut (· = 15) s t ∧ t.i = s.i ∧ t.pc = s.pc ∧ SameMemory s t ∧ SameStack s t ∧ SameDevices s t

/-- "drawing the same sprite again at the same location clears all 8 pixels (XOR)" (R141, S6): a second draw of the same
sprite bytes at the same origin, on the screen the first one left, restores every cell. -/
def Obligations.DrawingTwiceRestoresTheScreen : Prop :=
  ∀ (s t s' : State) (x y : Fin 16) (n : Nibble), exec (.drw x.val y.val n) s = .next t →
    s'.fb = t.fb → s'.reg x = s.reg x → s'.reg y = s.reg y → s'.i = s.i → s'.mem = s.mem →
    ∃ t', exec (.drw x.val y.val n) s' = .next t' ∧ ∀ k, k < 2048 → cell t'.fb k = cell s.fb k

/-! ## Control transfer -/

/-- R150 and R153: 1NNN and BNNN, whose register is always V0 and whose sum is not reduced modulo 4096. -/
def Obligations.JumpsSetPc : Prop :=
  ∀ (s : State) (nnn : Addr12),
    (∃ t, exec (.jp nnn) s = .next t ∧ t.pc.toNat = nnn.toNat ∧ OnlyPc s t) ∧
      ∃ t, exec (.jpV0 nnn) s = .next t ∧ t.pc.toNat = (nnn.toNat + (s.reg 0).toNat) % 65536 ∧
        t.pc.toNat = nnn.toNat + (s.reg 0).toNat ∧ OnlyPc s t

/-- R154 to R157: 3XNN, 4XNN, 5XY0, 9XY0 add 2 to the advanced PC when the condition holds. -/
def Obligations.SkipsAddTwoWhenTheConditionHolds : Prop :=
  ∀ (s : State) (x y : Fin 16) (nn : Byte),
    (∃ t, exec (.seByte x.val nn) s = .next t ∧ t.pc = (if s.reg x = nn then s.pc + 2#16 else s.pc) ∧ OnlyPc s t) ∧
    (∃ t, exec (.sneByte x.val nn) s = .next t ∧ t.pc = (if s.reg x ≠ nn then s.pc + 2#16 else s.pc) ∧ OnlyPc s t) ∧
    (∃ t, exec (.seReg x.val y.val) s = .next t ∧ t.pc = (if s.reg x = s.reg y then s.pc + 2#16 else s.pc) ∧ OnlyPc s t) ∧
    ∃ t, exec (.sneReg x.val y.val) s = .next t ∧ t.pc = (if s.reg x ≠ s.reg y then s.pc + 2#16 else s.pc) ∧ OnlyPc s t

/-- R158 and R159: EX9E and EXA1 on a key index 0..15, the key state being the current one and left alone; a value above
15 raises InvalidKey, not masked and not "not pressed". The info value is decision D10 (log 22). -/
def Obligations.KeySkipsPollTheKey : Prop :=
  ∀ (s : State) (x : Fin 16),
    (∀ k : Fin 16, k.val = (s.reg x).toNat →
      (∃ t, exec (.skp x.val) s = .next t ∧ t.pc = (if s.key[k.val] = true then s.pc + 2#16 else s.pc) ∧ OnlyPc s t) ∧
      ∃ t, exec (.sknp x.val) s = .next t ∧ t.pc = (if s.key[k.val] = false then s.pc + 2#16 else s.pc) ∧ OnlyPc s t) ∧
    (15 < (s.reg x).toNat →
      exec (.skp x.val) s = .fault (.invalidKey (s.reg x)) ∧ exec (.sknp x.val) s = .fault (.invalidKey (s.reg x)))

/-- R151 and R32: 2NNN pushes the advanced PC and jumps; with 16 return addresses stacked it raises StackOverflow. -/
def Obligations.CallPushesTheReturnAddress : Prop :=
  ∀ (s : State) (nnn : Addr12),
    (s.sp.val < 16 → ∃ t, exec (.call nnn) s = .next t ∧ t.pc.toNat = nnn.toNat ∧ t.sp.val = s.sp.val + 1 ∧
      (∀ k : Fin 16, t.stack[k.val] = if k.val = s.sp.val then s.pc else s.stack[k.val]) ∧ OnlyPcAndStack s t) ∧
    (s.sp.val = 16 → exec (.call nnn) s = .fault .stackOverflow)

/-- R152 and R33: 00EE pops the top of the stack into PC; with an empty stack it raises StackUnderflow. The slot keeps
its value: decision D13 (log 12). -/
def Obligations.ReturnPopsIntoPc : Prop :=
  ∀ s : State,
    (s.sp.val ≠ 0 → ∃ t, exec .ret s = .next t ∧ t.sp.val = s.sp.val - 1 ∧ t.stack = s.stack ∧
      (∀ k : Fin 16, k.val = s.sp.val - 1 → t.pc = s.stack[k.val]) ∧ OnlyPcAndStack s t) ∧
    (s.sp.val = 0 → exec .ret s = .fault .stackUnderflow)

/-- "call to address 0x300 then return restores PC to (original PC + 2)" (R152): after a CALL, and anything since that
left the stack as the CALL did, a RET completes, PC is what it was when the CALL executed, and SP is back. -/
def Obligations.ReturnUndoesCall : Prop :=
  ∀ (s t u : State) (nnn : Addr12), exec (.call nnn) s = .next t → u.sp = t.sp → u.stack = t.stack →
    ∃ w, exec .ret u = .next w ∧ w.pc = s.pc ∧ w.sp = s.sp ∧
      ∀ k : Fin 16, k.val < s.sp.val → w.stack[k.val] = s.stack[k.val]

/-! ## Index register and memory -/

/-- R170, R171, R172: ANNN, FX1E (modulo 65536, no flag) and FX29 (not masked to 4 bits). -/
def Obligations.IndexInstructionsSetI : Prop :=
  ∀ (s : State) (x : Fin 16) (nnn : Addr12),
    (∃ t, exec (.ldI nnn) s = .next t ∧ t.i.toNat = nnn.toNat ∧ OnlyIndex s t) ∧
    (∃ t, exec (.addI x.val) s = .next t ∧ t.i.toNat = (s.i.toNat + (s.reg x).toNat) % 65536 ∧ OnlyIndex s t) ∧
    ∃ t, exec (.ldF x.val) s = .next t ∧ t.i.toNat = 0x050 + 5 * (s.reg x).toNat ∧ OnlyIndex s t

/-- R173: FX33 stores the three decimal digits of V[X] at I, I+1, I+2 and changes no other byte. The canonical form of
memory, which every step keeps, is a premise. -/
def Obligations.BcdStoresThreeDigits : Prop :=
  ∀ (s : State) (x : Fin 16), s.mem.wf → s.i.toNat + 2 ≤ 4095 → ∃ t, exec (.ldB x.val) s = .next t ∧
    t.mem.read s.i.toNat = some (BitVec.ofNat 8 ((s.reg x).toNat / 100)) ∧
    t.mem.read (s.i.toNat + 1) = some (BitVec.ofNat 8 ((s.reg x).toNat / 10 % 10)) ∧
    t.mem.read (s.i.toNat + 2) = some (BitVec.ofNat 8 ((s.reg x).toNat % 10)) ∧ OnlyMemory s.i.toNat 3 s t

/-- R174: FX55 stores V0..VX at I..I+X and changes no other byte; I is left unmodified. -/
def Obligations.BlockStoreCopiesRegisters : Prop :=
  ∀ (s : State) (x : Fin 16), s.mem.wf → s.i.toNat + x.val ≤ 4095 → ∃ t, exec (.storeRegs x.val) s = .next t ∧
    (∀ k : Fin 16, k.val ≤ x.val → t.mem.read (s.i.toNat + k.val) = some (s.reg k)) ∧
    OnlyMemory s.i.toNat (x.val + 1) s t

/-- R175: FX65 loads V0..VX from I..I+X, leaves the registers above X, memory and I alone. -/
def Obligations.BlockLoadCopiesMemory : Prop :=
  ∀ (s : State) (x : Fin 16), s.i.toNat + x.val ≤ 4095 → ∃ t, exec (.loadRegs x.val) s = .next t ∧
    (∀ k : Fin 16, k.val ≤ x.val → s.mem.read (s.i.toNat + k.val) = some (t.reg k)) ∧
    OnlyRegs (fun k => k.val ≤ x.val) s t

/-- R141, R173, R174, R175: DXYN, FX33, FX55 and FX65 raise IndexOutOfBounds(I) when any byte of their range lies above
address 4095; for DXYN that is any of its N ≥ 1 sprite bytes, clipped rows included, which is decision D9 (log 8). That the
fault carries I is decision D10 with conflict C11 (log 22); that the sums do not wrap is decision D21 (log 20). -/
def Obligations.AccessPastTheEndOfMemoryFaults : Prop :=
  ∀ (s : State) (x y : Fin 16) (n : Nibble),
    (n.toNat ≠ 0 → 4095 < s.i.toNat + (n.toNat - 1) → exec (.drw x.val y.val n) s = .fault (.indexOutOfBounds s.i)) ∧
      (4093 < s.i.toNat → exec (.ldB x.val) s = .fault (.indexOutOfBounds s.i)) ∧
      (4095 < s.i.toNat + x.val → exec (.storeRegs x.val) s = .fault (.indexOutOfBounds s.i) ∧
        exec (.loadRegs x.val) s = .fault (.indexOutOfBounds s.i))

/-- R174 and R175 together: what FX55 stored, FX65 with the same X and I loads back. -/
def Obligations.BlockLoadUndoesBlockStore : Prop :=
  ∀ (s t u : State) (x : Fin 16), s.mem.wf → exec (.storeRegs x.val) s = .next t → u.mem = t.mem → u.i = t.i →
    ∃ w, exec (.loadRegs x.val) u = .next w ∧ ∀ k : Fin 16, k.val ≤ x.val → w.reg k = s.reg k

/-- R57 and R66: the word that FX55 stores from V0 and V1 at I is the very next word fetched from there, V0 its high byte;
no barrier is needed. -/
def Obligations.StoredWordIsTheNextFetched : Prop :=
  ∀ (s t : State) (x : Fin 16), s.mem.wf → 1 ≤ x.val → exec (.storeRegs x.val) s = .next t →
    ∃ w, fetch { t with pc := s.i } = .ok w ∧ w.toNat = (s.reg 0).toNat * 256 + (s.reg 1).toNat

/-! ## Timers and key wait -/

/-- R181 and R182: FX15 and FX18; DT and ST do not affect each other, and the beep follows ST at once. -/
def Obligations.TimerWritesSetTheTimer : Prop :=
  ∀ (s : State) (x : Fin 16),
    (∃ t, exec (.ldDtVx x.val) s = .next t ∧ t.dt = s.reg x ∧ t.st = s.st ∧ OnlyTimers s t) ∧
      ∃ t, exec (.ldStVx x.val) s = .next t ∧ t.st = s.reg x ∧ t.dt = s.dt ∧
        perform .readBeep t = (t, .flag (decide (0 < (s.reg x).toNat))) ∧ OnlyTimers s t

/-- R180: FX07 reads DT and does not change it. -/
def Obligations.TimerReadCopiesDt : Prop :=
  ∀ (s : State) (x : Fin 16), ∃ t, exec (.ldVxDt x.val) s = .next t ∧ t.reg x = s.dt ∧ OnlyRegs (· = x) s t

/-- R183 with decision D14 (log 13): FX0A takes the lowest pressed key, which stays pressed; with none pressed it takes PC
back by 2 and does nothing else. -/
def Obligations.KeyWaitTakesTheLowestKey : Prop :=
  ∀ (s : State) (x : Fin 16),
    (∀ k : Fin 16, s.key[k.val] = true → (∀ j : Fin 16, j < k → s.key[j.val] = false) →
      ∃ t, exec (.ldVxK x.val) s = .next t ∧ (t.reg x).toNat = k.val ∧ OnlyRegs (· = x) s t) ∧
    ((∀ k : Fin 16, s.key[k.val] = false) → exec (.ldVxK x.val) s = .next { s with pc := s.pc - 2#16 })

/-! ## Memory primitives -/

/-- R53 to R56: the four access primitives. The canonical form, a premise of what a write leaves, and that every write
keeps it, are the model's own representation of memory (log 18). -/
def Obligations.MemoryPrimitives : Prop :=
  ∀ (m : Memory) (a : Nat) (v : Byte) (bytes : List Byte), m.wf →
    ((m.read a).isSome = true ↔ a ≤ 4095) ∧
    (∀ w, m.readWord a = some w ↔
      ∃ hi lo, m.read a = some hi ∧ m.read (a + 1) = some lo ∧ w.toNat = hi.toNat * 256 + lo.toNat) ∧
    (a ≤ 4095 → ∃ m', m.write a v = some m' ∧ m'.wf ∧ ∀ b, m'.read b = if b = a then some v else m.read b) ∧
    (4095 < a → m.write a v = none) ∧
    (a + bytes.length ≤ 4096 → ∃ m', m.writeRange bytes a = some m' ∧ m'.wf ∧
      ∀ b, m'.read b = if a ≤ b ∧ b < a + bytes.length then bytes[b - a]? else m.read b) ∧
    (4096 < a + bytes.length → m.writeRange bytes a = none)

/-- The canonical form is canonical: two memories that read the same everywhere are equal data. -/
def Obligations.EqualReadsAreEqualMemories : Prop :=
  ∀ m m' : Memory, m.wf → m'.wf → (∀ a, m.read a = m'.read a) → m = m'

/-! ## The host interface -/

/-- R192: TICK decrements each nonzero timer by 1 and nothing else, it cannot fail, and no instruction of a STEP ticks. -/
def Obligations.TickCountsDownAndStepNeverTicks : Prop :=
  (∀ s : State, ∃ t, perform .tick s = (t, .ok) ∧ t.dt.toNat = s.dt.toNat - 1 ∧ t.st.toNat = s.st.toNat - 1 ∧ OnlyTimers s t) ∧
    ∀ (i : Instr) (s t : State), exec i s = .next t →
      (t.dt = s.dt ∨ ∃ x, i = .ldDtVx x) ∧ (t.st = s.st ∨ ∃ x, i = .ldStVx x)

/-- R193 and R194: a key index 0..15 sets or clears that key alone; any other integer is silently ignored. -/
def Obligations.KeyEventsSetOneKey : Prop :=
  ∀ (s : State) (k : Int),
    (0 ≤ k ∧ k ≤ 15 →
      (∃ t, perform (.keyPress k) s = (t, .ok) ∧ OnlyKeys s t ∧
        ∀ j : Fin 16, t.key[j.val] = if (j.val : Int) = k then true else s.key[j.val]) ∧
      ∃ t, perform (.keyRelease k) s = (t, .ok) ∧ OnlyKeys s t ∧
        ∀ j : Fin 16, t.key[j.val] = if (j.val : Int) = k then false else s.key[j.val]) ∧
    (k < 0 ∨ 15 < k → perform (.keyPress k) s = (s, .ok) ∧ perform (.keyRelease k) s = (s, .ok))

/-- R195: LOAD_ROM writes exactly the bytes from 0x200 up, or nothing at all when they would not fit. -/
def Obligations.LoadRomWritesWholeOrNothing : Prop :=
  ∀ (s : State) (bytes : List Byte), s.mem.wf →
    (bytes.length ≤ 3584 → ∃ t, perform (.loadRom bytes) s = (t, .ok) ∧
      (∀ k, k < bytes.length → t.mem.read (0x200 + k) = bytes[k]?) ∧ OnlyMemory 0x200 bytes.length s t) ∧
    (3584 < bytes.length → perform (.loadRom bytes) s = (s, .romTooLarge))

/-- R196, R197, R198: the observations answer UPD, the 2048 cells in row-major order, ST > 0, and have no effect; only
CLEAR_UPDATED clears UPD. -/
def Obligations.ObservationsHaveNoEffect : Prop :=
  ∀ s : State, perform .readUpdated s = (s, .flag s.upd) ∧ perform .clearUpdated s = ({ s with upd := false }, .ok) ∧
    (∃ l : List Bool, perform .readFb s = (s, .cells l) ∧ l.length = 2048 ∧
      ∀ x y : Nat, x < 64 → y < 32 → l[y * 64 + x]? = some (cell s.fb (y * 64 + x))) ∧
    perform .readBeep s = (s, .flag (decide (0 < s.st.toNat))) ∧
    perform .readDt s = (s, .value s.dt) ∧ perform .readSt s = (s, .value s.st)

/-- R242: resetting twice leaves what resetting once leaves, and what RESET leaves depends on nothing of the prior state.
The two fields of the model's own (log 9) are the environment's, and stay. -/
def Obligations.ResetIsIdempotent : Prop :=
  ∀ s s' : State, perform .reset (perform .reset s).1 = perform .reset s ∧
    (perform .reset s).1 = { (perform .reset s').1 with rndIn := s.rndIn, draws := s.draws }

/-- R240, R199 and R200: construction succeeds and RESET, from any state, leaves what construction gives: each piece at its
value. UPD is decision D12 (log 11). The font bytes are those of R62's table, the spec's general knowledge and decision
D17 (log 3). The model's own two fields (log 9) are the environment's: RESET leaves them, and no value of theirs is
claimed of the reset state. -/
def Obligations.ResetLeavesTheStatedValues : Prop :=
  construct = some State.reset ∧
    (∀ s : State, perform .reset s = ({ State.reset with rndIn := s.rndIn, draws := s.draws }, .ok)) ∧
    (∀ k : Fin 16, State.reset.reg k = 0#8) ∧ State.reset.i = 0#16 ∧ State.reset.pc = 0x200#16 ∧
    State.reset.sp = 0 ∧ (∀ k : Fin 16, State.reset.stack[k.val] = 0#16) ∧ State.reset.dt = 0#8 ∧ State.reset.st = 0#8 ∧
    (∀ k : Fin 16, State.reset.key[k.val] = false) ∧ (∀ k, k < 2048 → cell State.reset.fb k = false) ∧
    State.reset.upd = false ∧ beep State.reset = false ∧
    (∀ a, a < 4096 → State.reset.mem.read a = if 0x050 ≤ a ∧ a < 0x0A0 then glyphBytes[a - 0x050]? else some 0#8)

/-- R211 and R203, decision D10 (log 22): after a STEP that faults, the fault ports show the fault's code and info, and
the table of codes is R211's. -/
def Obligations.PortsReportTheFault : Prop :=
  (∀ (s : State) (k rnd : Byte) (len : BitVec 13) (rom : Nat → Byte) (last : HostResult) (f : Fault), stepWith rnd s = .fault f →
    let r := serve { op := 1, keyIdx := k, rnd := rnd, romLen := len, romData := rom } s last
    (portView r.1 r.2).fault.toNat = faultCode f ∧ (portView r.1 r.2).faultInfo = faultInfo f) ∧
  ∀ (n : Nat) (b : Byte) (w : Word),
    (faultCode (.invalidRegister n), faultInfo (.invalidRegister n)) = (1, BitVec.ofNat 16 n) ∧
    (faultCode (.invalidKey b), (faultInfo (.invalidKey b)).toNat) = (2, b.toNat) ∧
    (faultCode (.invalidOpcode w), faultInfo (.invalidOpcode w)) = (3, w) ∧
    (faultCode (.indexOutOfBounds w), faultInfo (.indexOutOfBounds w)) = (4, w) ∧
    (faultCode (.framebufferOutOfBounds n), faultInfo (.framebufferOutOfBounds n)) = (5, BitVec.ofNat 16 n) ∧
    (faultCode .stackOverflow, faultInfo .stackOverflow) = (6, 0) ∧
    (faultCode .stackUnderflow, faultInfo .stackUnderflow) = (7, 0) ∧
    (faultCode (.pcOutOfBounds w), faultInfo (.pcOutOfBounds w)) = (8, w)

/-! ## Whole-machine rules -/

/-- The invariant of Safety.lean holds after reset. -/
def Obligations.ResetMeetsTheInvariant : Prop := State.reset.Inv

/-- Every step keeps the invariant: memory stays canonical and inside its 4096 bytes, PC stays at most 0x10FE and the live
return addresses in 2..4096, so that no PC addition ever wraps (R27, R152). -/
def Obligations.EveryStepKeepsTheInvariant : Prop := ∀ s t : State, s.Inv → step s = .next t → t.Inv

/-- Every host operation keeps the invariant, a faulting STEP among them, and so does every run of operations (R190, R201).
The state a faulting STEP leaves is decisions D7 and D8 (log 7). -/
def Obligations.EveryRunKeepsTheInvariant : Prop :=
  (∀ (op : HostOp) (s : State), s.Inv → (perform op s).1.Inv) ∧
    ∀ (ops : List HostOp) (s t : State), s.Inv → runOps ops s = .next t → t.Inv

/-- R21, R22: a register changes only where the instruction names it as its destination; VF in addition by the five
flag-writing arithmetic instructions and DXYN, and by no other. -/
def Obligations.OnlyTheNamedRegistersChange : Prop :=
  ∀ (i : Instr) (s t : State) (k : Fin 16), exec i s = .next t → ¬mayWriteReg i k.val → t.reg k = s.reg k

/-- R144, R36: FB and UPD are changed by 00E0 and DXYN alone, and these two always set UPD. -/
def Obligations.OnlyDisplayInstructionsTouchTheScreen : Prop :=
  ∀ (i : Instr) (s t : State), exec i s = .next t → (isDisplay i → t.upd = true) ∧ (¬isDisplay i → SameScreen s t)

/-- R51, R61, R31, R34: memory is changed by FX33 and FX55 alone; SP and the stack by 2NNN and 00EE alone, so the call
stack is not in memory. -/
def Obligations.OnlyStoresChangeMemoryAndOnlyCallsTheStack : Prop :=
  ∀ (i : Instr) (s t : State), exec i s = .next t → (¬isStore i → SameMemory s t) ∧ (¬isStackOp i → SameStack s t)

/-- R30, R106, R38: I is changed by ANNN, FX1E and FX29 alone; PC is left at pc0 + 2 by every instruction whose rule does
not mention it; no instruction changes KEY. That FX0A does not clear the key it reports is decision
D14 with conflict C6 (log 13). -/
def Obligations.IndexPcAndKeysChangeOnlyAsListed : Prop :=
  ∀ (i : Instr) (s t : State), exec i s = .next t →
    (¬isIndexOp i → t.i = s.i) ∧ (¬mayWritePc i → t.pc = s.pc) ∧ t.key = s.key

/-- R35, R36: no instruction reads ST or UPD: changing them changes nothing an instruction does elsewhere. -/
def Obligations.SoundTimerAndUpdatedFlagAreNeverRead : Prop :=
  ∀ (i : Instr) (s t : State) (b : Byte) (c : Bool), exec i s = .next t →
    ∃ t', exec i { s with st := b, upd := c } = .next t' ∧ t' = { t with st := t'.st, upd := t'.upd }

/-- R33, U12: stack slots at and above SP are never read: two states that agree on all else go on agreeing, and fault
alike. -/
def Obligations.StaleStackSlotsAreNeverRead : Prop :=
  ∀ s s' : State, AgreeBelowSp s s' →
    (∀ t, step s = .next t → ∃ t', step s' = .next t' ∧ AgreeBelowSp t t') ∧
      ∀ f, step s = .fault f → step s' = .fault f

/-- R211, R217: an instruction raises a fault only where the table says, on the condition and with the info value of the
table. The info values are decision D10 with conflict C11 (log 22); that DXYN faults for a row off screen is decision D9
(log 8), that I + k does not wrap is decision D21 (log 20). -/
def Obligations.FaultsAreRaisedOnlyAsListed : Prop :=
  ∀ (i : Instr) (s : State) (f : Fault), i.wellFormed = true → exec i s = .fault f →
    (∃ x : Fin 16, (i = .skp x.val ∨ i = .sknp x.val) ∧ 15 < (s.reg x).toNat ∧ f = .invalidKey (s.reg x)) ∨
    (∃ (x y : Fin 16) (n : Nibble), i = .drw x.val y.val n ∧ n.toNat ≠ 0 ∧ 4095 < s.i.toNat + (n.toNat - 1) ∧
      f = .indexOutOfBounds s.i) ∨
    (∃ x : Fin 16, i = .ldB x.val ∧ 4095 < s.i.toNat + 2 ∧ f = .indexOutOfBounds s.i) ∨
    (∃ x : Fin 16, (i = .storeRegs x.val ∨ i = .loadRegs x.val) ∧ 4095 < s.i.toNat + x.val ∧ f = .indexOutOfBounds s.i) ∨
    ((∃ nnn, i = .call nnn) ∧ s.sp.val = 16 ∧ f = .stackOverflow) ∨ (i = .ret ∧ s.sp.val = 0 ∧ f = .stackUnderflow)

/-- R23, R141: the two defensive checks never fire in a step: no step raises InvalidRegister or FramebufferOutOfBounds;
and no step is refused. -/
def Obligations.DefensiveFaultsAreUnreachable : Prop :=
  ∀ s : State, (∀ k, step s ≠ .fault (.invalidRegister k)) ∧ (∀ k, step s ≠ .fault (.framebufferOutOfBounds k)) ∧
    ∀ r, step s ≠ .refused r

/-- R23, R108: an instruction term with a register index outside 0..15 raises InvalidRegister with the first such index,
X before Y, before anything else. That the fault carries the index is decision D10
(log 22); the ill-formed terms are the model's (log 23). -/
def Obligations.BadRegisterIndexFaults : Prop :=
  ∀ (i : Instr) (s : State) (k : Nat), badRegister i = some k → exec i s = .fault (.invalidRegister k)

/-- R107, R183: the two fixed points of STEP. From the self-jump a STEP succeeds and changes nothing, for every random
input; so does a STEP on FX0A with no key pressed. (That the self-jump is called the end of a run is D20, log 19.) -/
def Obligations.SelfJumpAndKeyWaitAreFixedPoints : Prop :=
  (∀ s : State, s.selfJump → step s = .next s ∧ ∀ rnd, perform (.step rnd) s = (s, .ok)) ∧
    ∀ (s : State) (w : Word) (x : Fin 16), s.mem.readWord s.pc.toNat = some w → decodeWord w = some (.ldVxK x.val) →
      (∀ k : Fin 16, s.key[k.val] = false) → step s = .next s ∧ ∀ rnd, perform (.step rnd) s = (s, .ok)
end

