-- ==== Sys2Proof/Laws/State.lean ====
section
/-!
SUPPORT. One lemma per field per update of State, and what each update does to the field it writes. Later proofs cite
these and unfold no record update.
-/

namespace Sys2Proof.Machine

/-! ### `setReg` -/

@[simp] theorem State.setReg_i (s : State) (r : Fin 16) (b : Byte) : (s.setReg r b).i = s.i := rfl
@[simp] theorem State.setReg_pc (s : State) (r : Fin 16) (b : Byte) : (s.setReg r b).pc = s.pc := rfl
@[simp] theorem State.setReg_sp (s : State) (r : Fin 16) (b : Byte) : (s.setReg r b).sp = s.sp := rfl
@[simp] theorem State.setReg_stack (s : State) (r : Fin 16) (b : Byte) : (s.setReg r b).stack = s.stack := rfl
@[simp] theorem State.setReg_dt (s : State) (r : Fin 16) (b : Byte) : (s.setReg r b).dt = s.dt := rfl
@[simp] theorem State.setReg_st (s : State) (r : Fin 16) (b : Byte) : (s.setReg r b).st = s.st := rfl
@[simp] theorem State.setReg_fb (s : State) (r : Fin 16) (b : Byte) : (s.setReg r b).fb = s.fb := rfl
@[simp] theorem State.setReg_upd (s : State) (r : Fin 16) (b : Byte) : (s.setReg r b).upd = s.upd := rfl
@[simp] theorem State.setReg_key (s : State) (r : Fin 16) (b : Byte) : (s.setReg r b).key = s.key := rfl
@[simp] theorem State.setReg_mem (s : State) (r : Fin 16) (b : Byte) : (s.setReg r b).mem = s.mem := rfl
@[simp] theorem State.setReg_rndIn (s : State) (r : Fin 16) (b : Byte) : (s.setReg r b).rndIn = s.rndIn := rfl
@[simp] theorem State.setReg_draws (s : State) (r : Fin 16) (b : Byte) : (s.setReg r b).draws = s.draws := rfl

/-! ### `setRegs` -/

@[simp] theorem State.setRegs_i (s : State) (bytes : List Byte) : (s.setRegs bytes).i = s.i := rfl
@[simp] theorem State.setRegs_pc (s : State) (bytes : List Byte) : (s.setRegs bytes).pc = s.pc := rfl
@[simp] theorem State.setRegs_sp (s : State) (bytes : List Byte) : (s.setRegs bytes).sp = s.sp := rfl
@[simp] theorem State.setRegs_stack (s : State) (bytes : List Byte) : (s.setRegs bytes).stack = s.stack := rfl
@[simp] theorem State.setRegs_dt (s : State) (bytes : List Byte) : (s.setRegs bytes).dt = s.dt := rfl
@[simp] theorem State.setRegs_st (s : State) (bytes : List Byte) : (s.setRegs bytes).st = s.st := rfl
@[simp] theorem State.setRegs_fb (s : State) (bytes : List Byte) : (s.setRegs bytes).fb = s.fb := rfl
@[simp] theorem State.setRegs_upd (s : State) (bytes : List Byte) : (s.setRegs bytes).upd = s.upd := rfl
@[simp] theorem State.setRegs_key (s : State) (bytes : List Byte) : (s.setRegs bytes).key = s.key := rfl
@[simp] theorem State.setRegs_mem (s : State) (bytes : List Byte) : (s.setRegs bytes).mem = s.mem := rfl
@[simp] theorem State.setRegs_rndIn (s : State) (bytes : List Byte) : (s.setRegs bytes).rndIn = s.rndIn := rfl
@[simp] theorem State.setRegs_draws (s : State) (bytes : List Byte) : (s.setRegs bytes).draws = s.draws := rfl

/-! ### `setI` -/

@[simp] theorem State.setI_v (s : State) (w : Word) : (s.setI w).v = s.v := rfl
@[simp] theorem State.setI_pc (s : State) (w : Word) : (s.setI w).pc = s.pc := rfl
@[simp] theorem State.setI_sp (s : State) (w : Word) : (s.setI w).sp = s.sp := rfl
@[simp] theorem State.setI_stack (s : State) (w : Word) : (s.setI w).stack = s.stack := rfl
@[simp] theorem State.setI_dt (s : State) (w : Word) : (s.setI w).dt = s.dt := rfl
@[simp] theorem State.setI_st (s : State) (w : Word) : (s.setI w).st = s.st := rfl
@[simp] theorem State.setI_fb (s : State) (w : Word) : (s.setI w).fb = s.fb := rfl
@[simp] theorem State.setI_upd (s : State) (w : Word) : (s.setI w).upd = s.upd := rfl
@[simp] theorem State.setI_key (s : State) (w : Word) : (s.setI w).key = s.key := rfl
@[simp] theorem State.setI_mem (s : State) (w : Word) : (s.setI w).mem = s.mem := rfl
@[simp] theorem State.setI_rndIn (s : State) (w : Word) : (s.setI w).rndIn = s.rndIn := rfl
@[simp] theorem State.setI_draws (s : State) (w : Word) : (s.setI w).draws = s.draws := rfl
@[simp] theorem State.setI_reg (s : State) (w : Word) (k : Fin 16) : (s.setI w).reg k = s.reg k := rfl
@[simp] theorem State.setI_i (s : State) (w : Word) : (s.setI w).i = w := rfl

/-! ### `setPc` -/

@[simp] theorem State.setPc_v (s : State) (w : Word) : (s.setPc w).v = s.v := rfl
@[simp] theorem State.setPc_i (s : State) (w : Word) : (s.setPc w).i = s.i := rfl
@[simp] theorem State.setPc_sp (s : State) (w : Word) : (s.setPc w).sp = s.sp := rfl
@[simp] theorem State.setPc_stack (s : State) (w : Word) : (s.setPc w).stack = s.stack := rfl
@[simp] theorem State.setPc_dt (s : State) (w : Word) : (s.setPc w).dt = s.dt := rfl
@[simp] theorem State.setPc_st (s : State) (w : Word) : (s.setPc w).st = s.st := rfl
@[simp] theorem State.setPc_fb (s : State) (w : Word) : (s.setPc w).fb = s.fb := rfl
@[simp] theorem State.setPc_upd (s : State) (w : Word) : (s.setPc w).upd = s.upd := rfl
@[simp] theorem State.setPc_key (s : State) (w : Word) : (s.setPc w).key = s.key := rfl
@[simp] theorem State.setPc_mem (s : State) (w : Word) : (s.setPc w).mem = s.mem := rfl
@[simp] theorem State.setPc_rndIn (s : State) (w : Word) : (s.setPc w).rndIn = s.rndIn := rfl
@[simp] theorem State.setPc_draws (s : State) (w : Word) : (s.setPc w).draws = s.draws := rfl
@[simp] theorem State.setPc_reg (s : State) (w : Word) (k : Fin 16) : (s.setPc w).reg k = s.reg k := rfl
@[simp] theorem State.setPc_pc (s : State) (w : Word) : (s.setPc w).pc = w := rfl

/-! ### `advance` -/

@[simp] theorem State.advance_v (s : State) : s.advance.v = s.v := rfl
@[simp] theorem State.advance_i (s : State) : s.advance.i = s.i := rfl
@[simp] theorem State.advance_sp (s : State) : s.advance.sp = s.sp := rfl
@[simp] theorem State.advance_stack (s : State) : s.advance.stack = s.stack := rfl
@[simp] theorem State.advance_dt (s : State) : s.advance.dt = s.dt := rfl
@[simp] theorem State.advance_st (s : State) : s.advance.st = s.st := rfl
@[simp] theorem State.advance_fb (s : State) : s.advance.fb = s.fb := rfl
@[simp] theorem State.advance_upd (s : State) : s.advance.upd = s.upd := rfl
@[simp] theorem State.advance_key (s : State) : s.advance.key = s.key := rfl
@[simp] theorem State.advance_mem (s : State) : s.advance.mem = s.mem := rfl
@[simp] theorem State.advance_rndIn (s : State) : s.advance.rndIn = s.rndIn := rfl
@[simp] theorem State.advance_draws (s : State) : s.advance.draws = s.draws := rfl
@[simp] theorem State.advance_reg (s : State) (k : Fin 16) : s.advance.reg k = s.reg k := rfl
@[simp] theorem State.advance_pc (s : State) : s.advance.pc = s.pc + 2#16 := rfl

/-! ### `rewind` -/

@[simp] theorem State.rewind_v (s : State) : s.rewind.v = s.v := rfl
@[simp] theorem State.rewind_i (s : State) : s.rewind.i = s.i := rfl
@[simp] theorem State.rewind_sp (s : State) : s.rewind.sp = s.sp := rfl
@[simp] theorem State.rewind_stack (s : State) : s.rewind.stack = s.stack := rfl
@[simp] theorem State.rewind_dt (s : State) : s.rewind.dt = s.dt := rfl
@[simp] theorem State.rewind_st (s : State) : s.rewind.st = s.st := rfl
@[simp] theorem State.rewind_fb (s : State) : s.rewind.fb = s.fb := rfl
@[simp] theorem State.rewind_upd (s : State) : s.rewind.upd = s.upd := rfl
@[simp] theorem State.rewind_key (s : State) : s.rewind.key = s.key := rfl
@[simp] theorem State.rewind_mem (s : State) : s.rewind.mem = s.mem := rfl
@[simp] theorem State.rewind_rndIn (s : State) : s.rewind.rndIn = s.rndIn := rfl
@[simp] theorem State.rewind_draws (s : State) : s.rewind.draws = s.draws := rfl
@[simp] theorem State.rewind_reg (s : State) (k : Fin 16) : s.rewind.reg k = s.reg k := rfl
@[simp] theorem State.rewind_pc (s : State) : s.rewind.pc = s.pc - 2#16 := rfl

/-! ### `setDt` -/

@[simp] theorem State.setDt_v (s : State) (b : Byte) : (s.setDt b).v = s.v := rfl
@[simp] theorem State.setDt_i (s : State) (b : Byte) : (s.setDt b).i = s.i := rfl
@[simp] theorem State.setDt_pc (s : State) (b : Byte) : (s.setDt b).pc = s.pc := rfl
@[simp] theorem State.setDt_sp (s : State) (b : Byte) : (s.setDt b).sp = s.sp := rfl
@[simp] theorem State.setDt_stack (s : State) (b : Byte) : (s.setDt b).stack = s.stack := rfl
@[simp] theorem State.setDt_st (s : State) (b : Byte) : (s.setDt b).st = s.st := rfl
@[simp] theorem State.setDt_fb (s : State) (b : Byte) : (s.setDt b).fb = s.fb := rfl
@[simp] theorem State.setDt_upd (s : State) (b : Byte) : (s.setDt b).upd = s.upd := rfl
@[simp] theorem State.setDt_key (s : State) (b : Byte) : (s.setDt b).key = s.key := rfl
@[simp] theorem State.setDt_mem (s : State) (b : Byte) : (s.setDt b).mem = s.mem := rfl
@[simp] theorem State.setDt_rndIn (s : State) (b : Byte) : (s.setDt b).rndIn = s.rndIn := rfl
@[simp] theorem State.setDt_draws (s : State) (b : Byte) : (s.setDt b).draws = s.draws := rfl
@[simp] theorem State.setDt_reg (s : State) (b : Byte) (k : Fin 16) : (s.setDt b).reg k = s.reg k := rfl
@[simp] theorem State.setDt_dt (s : State) (b : Byte) : (s.setDt b).dt = b := rfl

/-! ### `setSt` -/

@[simp] theorem State.setSt_v (s : State) (b : Byte) : (s.setSt b).v = s.v := rfl
@[simp] theorem State.setSt_i (s : State) (b : Byte) : (s.setSt b).i = s.i := rfl
@[simp] theorem State.setSt_pc (s : State) (b : Byte) : (s.setSt b).pc = s.pc := rfl
@[simp] theorem State.setSt_sp (s : State) (b : Byte) : (s.setSt b).sp = s.sp := rfl
@[simp] theorem State.setSt_stack (s : State) (b : Byte) : (s.setSt b).stack = s.stack := rfl
@[simp] theorem State.setSt_dt (s : State) (b : Byte) : (s.setSt b).dt = s.dt := rfl
@[simp] theorem State.setSt_fb (s : State) (b : Byte) : (s.setSt b).fb = s.fb := rfl
@[simp] theorem State.setSt_upd (s : State) (b : Byte) : (s.setSt b).upd = s.upd := rfl
@[simp] theorem State.setSt_key (s : State) (b : Byte) : (s.setSt b).key = s.key := rfl
@[simp] theorem State.setSt_mem (s : State) (b : Byte) : (s.setSt b).mem = s.mem := rfl
@[simp] theorem State.setSt_rndIn (s : State) (b : Byte) : (s.setSt b).rndIn = s.rndIn := rfl
@[simp] theorem State.setSt_draws (s : State) (b : Byte) : (s.setSt b).draws = s.draws := rfl
@[simp] theorem State.setSt_reg (s : State) (b : Byte) (k : Fin 16) : (s.setSt b).reg k = s.reg k := rfl
@[simp] theorem State.setSt_st (s : State) (b : Byte) : (s.setSt b).st = b := rfl

/-! ### `setMem` -/

@[simp] theorem State.setMem_v (s : State) (m : Memory) : (s.setMem m).v = s.v := rfl
@[simp] theorem State.setMem_i (s : State) (m : Memory) : (s.setMem m).i = s.i := rfl
@[simp] theorem State.setMem_pc (s : State) (m : Memory) : (s.setMem m).pc = s.pc := rfl
@[simp] theorem State.setMem_sp (s : State) (m : Memory) : (s.setMem m).sp = s.sp := rfl
@[simp] theorem State.setMem_stack (s : State) (m : Memory) : (s.setMem m).stack = s.stack := rfl
@[simp] theorem State.setMem_dt (s : State) (m : Memory) : (s.setMem m).dt = s.dt := rfl
@[simp] theorem State.setMem_st (s : State) (m : Memory) : (s.setMem m).st = s.st := rfl
@[simp] theorem State.setMem_fb (s : State) (m : Memory) : (s.setMem m).fb = s.fb := rfl
@[simp] theorem State.setMem_upd (s : State) (m : Memory) : (s.setMem m).upd = s.upd := rfl
@[simp] theorem State.setMem_key (s : State) (m : Memory) : (s.setMem m).key = s.key := rfl
@[simp] theorem State.setMem_rndIn (s : State) (m : Memory) : (s.setMem m).rndIn = s.rndIn := rfl
@[simp] theorem State.setMem_draws (s : State) (m : Memory) : (s.setMem m).draws = s.draws := rfl
@[simp] theorem State.setMem_reg (s : State) (m : Memory) (k : Fin 16) : (s.setMem m).reg k = s.reg k := rfl
@[simp] theorem State.setMem_mem (s : State) (m : Memory) : (s.setMem m).mem = m := rfl

/-! ### `show` -/

@[simp] theorem State.show_v (s : State) (fb : Framebuffer) : (s.show fb).v = s.v := rfl
@[simp] theorem State.show_i (s : State) (fb : Framebuffer) : (s.show fb).i = s.i := rfl
@[simp] theorem State.show_pc (s : State) (fb : Framebuffer) : (s.show fb).pc = s.pc := rfl
@[simp] theorem State.show_sp (s : State) (fb : Framebuffer) : (s.show fb).sp = s.sp := rfl
@[simp] theorem State.show_stack (s : State) (fb : Framebuffer) : (s.show fb).stack = s.stack := rfl
@[simp] theorem State.show_dt (s : State) (fb : Framebuffer) : (s.show fb).dt = s.dt := rfl
@[simp] theorem State.show_st (s : State) (fb : Framebuffer) : (s.show fb).st = s.st := rfl
@[simp] theorem State.show_key (s : State) (fb : Framebuffer) : (s.show fb).key = s.key := rfl
@[simp] theorem State.show_mem (s : State) (fb : Framebuffer) : (s.show fb).mem = s.mem := rfl
@[simp] theorem State.show_rndIn (s : State) (fb : Framebuffer) : (s.show fb).rndIn = s.rndIn := rfl
@[simp] theorem State.show_draws (s : State) (fb : Framebuffer) : (s.show fb).draws = s.draws := rfl
@[simp] theorem State.show_reg (s : State) (fb : Framebuffer) (k : Fin 16) : (s.show fb).reg k = s.reg k := rfl

/-! ### `drawn` -/

@[simp] theorem State.drawn_v (s : State) : s.drawn.v = s.v := rfl
@[simp] theorem State.drawn_i (s : State) : s.drawn.i = s.i := rfl
@[simp] theorem State.drawn_pc (s : State) : s.drawn.pc = s.pc := rfl
@[simp] theorem State.drawn_sp (s : State) : s.drawn.sp = s.sp := rfl
@[simp] theorem State.drawn_stack (s : State) : s.drawn.stack = s.stack := rfl
@[simp] theorem State.drawn_dt (s : State) : s.drawn.dt = s.dt := rfl
@[simp] theorem State.drawn_st (s : State) : s.drawn.st = s.st := rfl
@[simp] theorem State.drawn_fb (s : State) : s.drawn.fb = s.fb := rfl
@[simp] theorem State.drawn_upd (s : State) : s.drawn.upd = s.upd := rfl
@[simp] theorem State.drawn_key (s : State) : s.drawn.key = s.key := rfl
@[simp] theorem State.drawn_mem (s : State) : s.drawn.mem = s.mem := rfl
@[simp] theorem State.drawn_reg (s : State) (k : Fin 16) : s.drawn.reg k = s.reg k := rfl

/-! ### `setFlag` -/

@[simp] theorem State.setFlag_i (s : State) (c : Bool) : (s.setFlag c).i = s.i := rfl
@[simp] theorem State.setFlag_pc (s : State) (c : Bool) : (s.setFlag c).pc = s.pc := rfl
@[simp] theorem State.setFlag_sp (s : State) (c : Bool) : (s.setFlag c).sp = s.sp := rfl
@[simp] theorem State.setFlag_stack (s : State) (c : Bool) : (s.setFlag c).stack = s.stack := rfl
@[simp] theorem State.setFlag_dt (s : State) (c : Bool) : (s.setFlag c).dt = s.dt := rfl
@[simp] theorem State.setFlag_st (s : State) (c : Bool) : (s.setFlag c).st = s.st := rfl
@[simp] theorem State.setFlag_fb (s : State) (c : Bool) : (s.setFlag c).fb = s.fb := rfl
@[simp] theorem State.setFlag_upd (s : State) (c : Bool) : (s.setFlag c).upd = s.upd := rfl
@[simp] theorem State.setFlag_key (s : State) (c : Bool) : (s.setFlag c).key = s.key := rfl
@[simp] theorem State.setFlag_mem (s : State) (c : Bool) : (s.setFlag c).mem = s.mem := rfl
@[simp] theorem State.setFlag_rndIn (s : State) (c : Bool) : (s.setFlag c).rndIn = s.rndIn := rfl
@[simp] theorem State.setFlag_draws (s : State) (c : Bool) : (s.setFlag c).draws = s.draws := rfl

/-! ### `setRegFlag` -/

@[simp] theorem State.setRegFlag_i (s : State) (r : Fin 16) (b : Byte) (c : Bool) : (s.setRegFlag r b c).i = s.i := rfl
@[simp] theorem State.setRegFlag_pc (s : State) (r : Fin 16) (b : Byte) (c : Bool) : (s.setRegFlag r b c).pc = s.pc := rfl
@[simp] theorem State.setRegFlag_sp (s : State) (r : Fin 16) (b : Byte) (c : Bool) : (s.setRegFlag r b c).sp = s.sp := rfl
@[simp] theorem State.setRegFlag_stack (s : State) (r : Fin 16) (b : Byte) (c : Bool) : (s.setRegFlag r b c).stack = s.stack := rfl
@[simp] theorem State.setRegFlag_dt (s : State) (r : Fin 16) (b : Byte) (c : Bool) : (s.setRegFlag r b c).dt = s.dt := rfl
@[simp] theorem State.setRegFlag_st (s : State) (r : Fin 16) (b : Byte) (c : Bool) : (s.setRegFlag r b c).st = s.st := rfl
@[simp] theorem State.setRegFlag_fb (s : State) (r : Fin 16) (b : Byte) (c : Bool) : (s.setRegFlag r b c).fb = s.fb := rfl
@[simp] theorem State.setRegFlag_upd (s : State) (r : Fin 16) (b : Byte) (c : Bool) : (s.setRegFlag r b c).upd = s.upd := rfl
@[simp] theorem State.setRegFlag_key (s : State) (r : Fin 16) (b : Byte) (c : Bool) : (s.setRegFlag r b c).key = s.key := rfl
@[simp] theorem State.setRegFlag_mem (s : State) (r : Fin 16) (b : Byte) (c : Bool) : (s.setRegFlag r b c).mem = s.mem := rfl
@[simp] theorem State.setRegFlag_rndIn (s : State) (r : Fin 16) (b : Byte) (c : Bool) : (s.setRegFlag r b c).rndIn = s.rndIn := rfl
@[simp] theorem State.setRegFlag_draws (s : State) (r : Fin 16) (b : Byte) (c : Bool) : (s.setRegFlag r b c).draws = s.draws := rfl

/-! ### `draw` -/

@[simp] theorem State.draw_i (s : State) (cells : List Nat) : (s.draw cells).i = s.i := rfl
@[simp] theorem State.draw_pc (s : State) (cells : List Nat) : (s.draw cells).pc = s.pc := rfl
@[simp] theorem State.draw_sp (s : State) (cells : List Nat) : (s.draw cells).sp = s.sp := rfl
@[simp] theorem State.draw_stack (s : State) (cells : List Nat) : (s.draw cells).stack = s.stack := rfl
@[simp] theorem State.draw_dt (s : State) (cells : List Nat) : (s.draw cells).dt = s.dt := rfl
@[simp] theorem State.draw_st (s : State) (cells : List Nat) : (s.draw cells).st = s.st := rfl
@[simp] theorem State.draw_key (s : State) (cells : List Nat) : (s.draw cells).key = s.key := rfl
@[simp] theorem State.draw_mem (s : State) (cells : List Nat) : (s.draw cells).mem = s.mem := rfl
@[simp] theorem State.draw_rndIn (s : State) (cells : List Nat) : (s.draw cells).rndIn = s.rndIn := rfl
@[simp] theorem State.draw_draws (s : State) (cells : List Nat) : (s.draw cells).draws = s.draws := rfl

/-! ### `skipIf` -/

@[simp] theorem State.skipIf_v (s : State) (c : Bool) : (s.skipIf c).v = s.v := by cases c <;> rfl
@[simp] theorem State.skipIf_i (s : State) (c : Bool) : (s.skipIf c).i = s.i := by cases c <;> rfl
@[simp] theorem State.skipIf_sp (s : State) (c : Bool) : (s.skipIf c).sp = s.sp := by cases c <;> rfl
@[simp] theorem State.skipIf_stack (s : State) (c : Bool) : (s.skipIf c).stack = s.stack := by cases c <;> rfl
@[simp] theorem State.skipIf_dt (s : State) (c : Bool) : (s.skipIf c).dt = s.dt := by cases c <;> rfl
@[simp] theorem State.skipIf_st (s : State) (c : Bool) : (s.skipIf c).st = s.st := by cases c <;> rfl
@[simp] theorem State.skipIf_fb (s : State) (c : Bool) : (s.skipIf c).fb = s.fb := by cases c <;> rfl
@[simp] theorem State.skipIf_upd (s : State) (c : Bool) : (s.skipIf c).upd = s.upd := by cases c <;> rfl
@[simp] theorem State.skipIf_key (s : State) (c : Bool) : (s.skipIf c).key = s.key := by cases c <;> rfl
@[simp] theorem State.skipIf_mem (s : State) (c : Bool) : (s.skipIf c).mem = s.mem := by cases c <;> rfl
@[simp] theorem State.skipIf_rndIn (s : State) (c : Bool) : (s.skipIf c).rndIn = s.rndIn := by cases c <;> rfl
@[simp] theorem State.skipIf_draws (s : State) (c : Bool) : (s.skipIf c).draws = s.draws := by cases c <;> rfl
@[simp] theorem State.skipIf_reg (s : State) (c : Bool) (k : Fin 16) : (s.skipIf c).reg k = s.reg k := by cases c <;> rfl
@[simp] theorem State.skipIf_pc (s : State) (c : Bool) : (s.skipIf c).pc = if c then s.pc + 2#16 else s.pc := by cases c <;> rfl

/-! ### What the updates write -/

@[simp] theorem State.reg_setReg (s : State) (r k : Fin 16) (b : Byte) :
    (s.setReg r b).reg k = if r = k then b else s.reg k := by
  simp only [State.reg, State.setReg, Vector.getElem_set, Fin.ext_iff]

@[simp] theorem State.reg_setFlag (s : State) (c : Bool) (k : Fin 16) :
    (s.setFlag c).reg k = if Config.flagReg = k then flagByte c else s.reg k := State.reg_setReg s _ k _

/-- The flag is written last (D5): VF holds it, whatever register the result went to. -/
@[simp] theorem State.reg_setRegFlag (s : State) (r k : Fin 16) (b : Byte) (c : Bool) :
    (s.setRegFlag r b c).reg k = if Config.flagReg = k then flagByte c else if r = k then b else s.reg k := by
  show ((s.setReg r b).setFlag c).reg k = _
  rw [State.reg_setFlag, State.reg_setReg]

theorem loadFrom_getElem (v : Vector Byte 16) (k : Nat) (bytes : List Byte) (j : Nat) (hj : j < 16) :
    (loadFrom v k bytes)[j] = if k ≤ j ∧ j < k + bytes.length then bytes.getD (j - k) 0#8 else v[j] := by
  induction bytes generalizing v k with
  | nil =>
    have : ¬(k ≤ j ∧ j < k) := by omega
    simp [loadFrom, this]
  | cons b bs ih =>
    rw [loadFrom, ih]
    simp only [Vector.getElem_setIfInBounds, List.length_cons]
    by_cases h1 : k = j
    · subst h1
      simp
    · by_cases h2 : k + 1 ≤ j ∧ j < k + 1 + bs.length
      · have h3 : k ≤ j ∧ j < k + (bs.length + 1) := by omega
        have h4 : j - k = (j - (k + 1)) + 1 := by omega
        simp [h2, h3, h4]
      · have h3 : ¬(k ≤ j ∧ j < k + (bs.length + 1)) := by omega
        rw [if_neg h2, if_neg h3, if_neg h1]

/-- FX65's register writes: the first registers take the bytes, the others keep their value. -/
@[simp] theorem State.reg_setRegs (s : State) (bytes : List Byte) (k : Fin 16) :
    (s.setRegs bytes).reg k = if k.val < bytes.length then bytes.getD k.val 0#8 else s.reg k := by
  simp [State.reg, State.setRegs, loadFrom_getElem]

@[simp] theorem State.show_fb (s : State) (fb : Framebuffer) : (s.show fb).fb = fb := rfl
@[simp] theorem State.show_upd (s : State) (fb : Framebuffer) : (s.show fb).upd = true := rfl
@[simp] theorem State.drawn_rndIn (s : State) : s.drawn.rndIn = s.rndIn.tail := rfl
@[simp] theorem State.drawn_draws (s : State) : s.drawn.draws = s.draws + 1 := rfl
@[simp] theorem State.draw_fb (s : State) (cells : List Nat) : (s.draw cells).fb = (plotAll s.fb cells).1 := rfl
@[simp] theorem State.draw_upd (s : State) (cells : List Nat) : (s.draw cells).upd = true := rfl
@[simp] theorem State.reg_draw (s : State) (cells : List Nat) (k : Fin 16) :
    (s.draw cells).reg k = if Config.flagReg = k then flagByte (plotAll s.fb cells).2 else s.reg k := State.reg_setFlag _ _ k

@[simp] theorem flagByte_true : flagByte true = 1#8 := rfl
@[simp] theorem flagByte_false : flagByte false = 0#8 := rfl

@[simp] theorem State.length_regBlock (s : State) (x : Nat) : (s.regBlock x).length = min (x + 1) 16 := by
  simp [State.regBlock]

/-- FX55's bytes: the k-th is V[k]. -/
theorem State.getD_regBlock (s : State) (x : Nat) (k : Fin 16) (h : k.val ≤ x) : (s.regBlock x).getD k.val 0#8 = s.reg k := by
  have h1 : k.val < x + 1 := by omega
  have h2 := k.isLt
  simp [State.regBlock, State.reg, h1, h2, List.getD]

/-! ### The call stack -/

/-- A push answers exactly when SP < 16, and then this is all it does (R32). -/
theorem State.push_eq_some {s t : State} {w : Word} :
    s.push w = some t ↔ ∃ h : s.sp.val < 16,
      t = { s with stack := s.stack.set s.sp.val w, sp := ⟨s.sp.val + 1, by omega⟩ } := by
  unfold State.push
  split
  · rename_i h
    simp [h, eq_comm]
  · rename_i h
    simp [h]

theorem State.push_eq_none {s : State} {w : Word} : s.push w = none ↔ s.sp.val = 16 := by
  have := s.sp.isLt
  unfold State.push
  split
  · simp; omega
  · simp; omega

/-- A pop answers exactly when SP > 0, and then this is all it does (R33). -/
theorem State.pop_eq_some {s t : State} {w : Word} :
    s.pop = some (w, t) ↔ ∃ (_ : s.sp.val ≠ 0) (h' : s.sp.val - 1 < 16),
      w = s.stack[s.sp.val - 1] ∧ t = { s with sp := ⟨s.sp.val - 1, by omega⟩ } := by
  have := s.sp.isLt
  unfold State.pop
  split
  · rename_i h
    simp [h]
  · rename_i h
    simp only [Option.some.injEq, Prod.mk.injEq]
    constructor
    · rintro ⟨rfl, rfl⟩
      exact ⟨h, by omega, rfl, rfl⟩
    · rintro ⟨_, _, rfl, rfl⟩
      exact ⟨rfl, rfl⟩

theorem State.pop_eq_none {s : State} : s.pop = none ↔ s.sp.val = 0 := by
  unfold State.pop
  split
  · rename_i h
    simp [h]
  · rename_i h
    simp [h]

/-! ### The keypad -/

theorem State.firstKey_eq_some {s : State} {k : Nat} :
    s.firstKey = some k ↔ k < 16 ∧ s.keyDown k = true ∧ ∀ j, j < k → s.keyDown j = false := by
  unfold State.firstKey State.keyDown
  rw [List.findIdx?_eq_some_iff_getElem]
  constructor
  · rintro ⟨h, h1, h2⟩
    have h16 : k < 16 := by simpa using h
    refine ⟨h16, by simpa [h16] using h1, fun j hj => ?_⟩
    have := h2 j hj
    have hj16 : j < 16 := by omega
    simpa [hj16] using this
  · rintro ⟨h16, h1, h2⟩
    refine ⟨by simpa using h16, by simpa [h16] using h1, fun j hj => ?_⟩
    have := h2 j hj
    have hj16 : j < 16 := by omega
    simpa [hj16] using this

theorem State.firstKey_eq_none {s : State} : s.firstKey = none ↔ ∀ k, s.keyDown k = false := by
  unfold State.firstKey State.keyDown
  rw [List.findIdx?_eq_none_iff]
  constructor
  · intro h k
    split
    · rename_i hk
      exact h _ (by simp)
    · rfl
  · intro h x hx
    obtain ⟨k, hk, rfl⟩ := List.mem_iff_getElem.mp hx
    have h16 : k < 16 := by simpa using hk
    have := h k
    simpa [h16] using this

end Sys2Proof.Machine
end

