-- ==== Sys2Proof/Laws/Memory.lean ====
section
/-!
SUPPORT. The laws of memory: a read after a write to the same place gives the value written, a write leaves every other
place alone, and every memory operation keeps the canonical form.
-/

namespace Sys2Proof.Machine

/-- Strictly rising addresses: the half of `Memory.wf` that reads and writes depend on. -/
abbrev Memory.sorted (m : Memory) : Prop := m.Pairwise fun c d => c.1 < d.1

theorem Memory.wf.sorted {m : Memory} (h : m.wf) : m.sorted := h.1

theorem Memory.get_entry_append (a a' : Nat) (v : Byte) (m : Memory) (h : ∀ c ∈ m, a < c.1) :
    Memory.get (Memory.entry a v ++ m) a' = if a' = a then v else Memory.get m a' := by
  have key : ∀ m : Memory, (∀ c ∈ m, a < c.1) → Memory.get m a = Memory.unlisted a := by
    intro m
    induction m with
    | nil => intro _; rfl
    | cons c m ih =>
      intro h
      have hc := h c (by simp)
      have : ¬a = c.1 := by omega
      simp only [Memory.get, this, if_false]
      exact ih fun d hd => h d (by simp [hd])
  unfold Memory.entry
  by_cases hv : v = Memory.unlisted a
  · by_cases ha : a' = a
    · subst ha
      simp [hv, key m h]
    · simp [hv, ha]
  · by_cases ha : a' = a
    · simp [hv, ha, Memory.get]
    · simp [hv, ha, Memory.get]

theorem Memory.get_put (m : Memory) (a a' : Nat) (v : Byte) (h : m.sorted) :
    Memory.get (Memory.put m a v) a' = if a' = a then v else Memory.get m a' := by
  induction m with
  | nil => simpa [Memory.put] using Memory.get_entry_append a a' v [] (by simp)
  | cons c m ih =>
    obtain ⟨b, w⟩ := c
    have hp := List.pairwise_cons.mp h
    unfold Memory.put
    split
    · rename_i hlt
      refine Memory.get_entry_append a a' v _ fun d hd => ?_
      rcases List.mem_cons.mp hd with rfl | hd
      · exact hlt
      · exact Nat.lt_trans hlt (hp.1 d hd)
    · split
      · rename_i _ heq
        subst heq
        rw [Memory.get_entry_append a a' v m hp.1]
        by_cases ha : a' = a
        · simp [ha]
        · simp [Memory.get, ha]
      · rename_i _ hne
        simp only [Memory.get]
        by_cases hb : a' = b
        · have : ¬b = a := fun e => hne e.symm
          simp [hb, this]
        · simp [hb, ih hp.2]

theorem Memory.mem_put {m : Memory} {a : Nat} {v : Byte} {c : Host.Cell} (h : c ∈ Memory.put m a v) :
    c ∈ m ∨ c = (a, v) ∧ v ≠ Memory.unlisted a := by
  have key : ∀ l : Memory, c ∈ Memory.entry a v ++ l → c ∈ l ∨ c = (a, v) ∧ v ≠ Memory.unlisted a := by
    intro l hc
    rcases List.mem_append.mp hc with hc | hc
    · unfold Memory.entry at hc
      split at hc
      · simp at hc
      · rename_i hv
        exact .inr ⟨by simpa using hc, hv⟩
    · exact .inl hc
  induction m with
  | nil => exact key [] (by simpa [Memory.put] using h)
  | cons d m ih =>
    obtain ⟨b, w⟩ := d
    unfold Memory.put at h
    split at h
    · exact key _ h
    · split at h
      · rcases key _ h with h | h
        · exact .inl (by simp [h])
        · exact .inr h
      · rcases List.mem_cons.mp h with rfl | h
        · exact .inl (by simp)
        · rcases ih h with h | h
          · exact .inl (by simp [h])
          · exact .inr h

theorem Memory.put_sorted {m : Memory} (a : Nat) (v : Byte) (h : m.sorted) : (Memory.put m a v).sorted := by
  have key : ∀ l : Memory, (∀ c ∈ l, a < c.1) → l.sorted → (Memory.entry a v ++ l).sorted := by
    intro l hl hs
    unfold Memory.entry
    split
    · exact hs
    · exact List.pairwise_cons.mpr ⟨hl, hs⟩
  induction m with
  | nil => simpa [Memory.put] using key [] (by simp) List.Pairwise.nil
  | cons c m ih =>
    obtain ⟨b, w⟩ := c
    have hp := List.pairwise_cons.mp h
    unfold Memory.put
    split
    · rename_i hlt
      refine key _ (fun d hd => ?_) h
      rcases List.mem_cons.mp hd with rfl | hd
      · exact hlt
      · exact Nat.lt_trans hlt (hp.1 d hd)
    · split
      · rename_i _ heq
        subst heq
        exact key m hp.1 hp.2
      · rename_i h1 h2
        refine List.pairwise_cons.mpr ⟨fun d hd => ?_, ih hp.2⟩
        rcases Memory.mem_put hd with hd | ⟨rfl, _⟩
        · exact hp.1 d hd
        · show b < a
          omega

theorem Memory.put_wf {m : Memory} {a : Nat} (v : Byte) (h : m.wf) (ha : a < Config.memSize) :
    (Memory.put m a v).wf := by
  refine ⟨Memory.put_sorted a v h.1, fun c hc => ?_⟩
  rcases Memory.mem_put hc with hc | ⟨rfl, hv⟩
  · exact h.2 c hc
  · exact ⟨ha, hv⟩

theorem Memory.putAll_sorted {m : Memory} (start : Nat) (bytes : List Byte) (h : m.sorted) :
    (Memory.putAll m start bytes).sorted := by
  induction bytes generalizing m start with
  | nil => exact h
  | cons b bs ih => exact ih (start + 1) (Memory.put_sorted start b h)

theorem Memory.putAll_wf {m : Memory} (start : Nat) (bytes : List Byte) (h : m.wf)
    (hb : start + bytes.length ≤ Config.memSize) : (Memory.putAll m start bytes).wf := by
  induction bytes generalizing m start with
  | nil => exact h
  | cons b bs ih =>
    simp only [List.length_cons] at hb
    exact ih (start + 1) (Memory.put_wf b h (by omega)) (by omega)

/-- What a range write leaves in every byte. -/
theorem Memory.get_putAll (m : Memory) (start : Nat) (bytes : List Byte) (a : Nat) (h : m.sorted) :
    Memory.get (Memory.putAll m start bytes) a =
      if start ≤ a ∧ a < start + bytes.length then bytes.getD (a - start) 0#8 else Memory.get m a := by
  induction bytes generalizing m start with
  | nil =>
    have : ¬(start ≤ a ∧ a < start + 0) := by omega
    rw [List.length_nil, if_neg this, Memory.putAll]
  | cons b bs ih =>
    rw [Memory.putAll, ih _ _ (Memory.put_sorted start b h), Memory.get_put _ _ _ _ h]
    simp only [List.length_cons]
    by_cases h1 : a = start
    · subst h1
      simp
    · by_cases h2 : start + 1 ≤ a ∧ a < start + 1 + bs.length
      · have h3 : start ≤ a ∧ a < start + (bs.length + 1) := by omega
        have h4 : a - start = (a - (start + 1)) + 1 := by omega
        simp [h2, h3, h4]
      · have h3 : ¬(start ≤ a ∧ a < start + (bs.length + 1)) := by omega
        rw [if_neg h2, if_neg h3, if_neg h1]

/-! ### The primitives of R53 to R56 -/

theorem Memory.read_eq_get {m : Memory} {a : Nat} (h : a < Config.memSize) : m.read a = some (m.get a) := by
  simp [Memory.read, h]

theorem Memory.read_congr {m m' : Memory} {a : Nat} (h : m.get a = m'.get a) : m.read a = m'.read a := by
  simp [Memory.read, h]

theorem Memory.readWord_eq_some {m : Memory} {a : Nat} {w : Word} :
    m.readWord a = some w ↔ a + 1 < Config.memSize ∧ w = m.get a ++ m.get (a + 1) := by
  unfold Memory.readWord
  split
  · rename_i h
    simp [eq_comm]
    omega
  · rename_i h
    simp
    omega

theorem Memory.write_eq_some {m m' : Memory} {a : Nat} {v : Byte} :
    m.write a v = some m' ↔ a < Config.memSize ∧ m' = m.put a v := by
  unfold Memory.write
  split
  · rename_i h
    simp [h, eq_comm]
  · rename_i h
    simp [h]

theorem Memory.writeRange_eq_some {m m' : Memory} {bytes : List Byte} {start : Nat} :
    m.writeRange bytes start = some m' ↔ start + bytes.length ≤ Config.memSize ∧ m' = m.putAll start bytes := by
  unfold Memory.writeRange
  split
  · rename_i h
    simp [h, eq_comm]
  · rename_i h
    simp [h]

theorem Memory.writeRange_eq_none {m : Memory} {bytes : List Byte} {start : Nat} :
    m.writeRange bytes start = none ↔ Config.memSize < start + bytes.length := by
  unfold Memory.writeRange
  split
  · simp; omega
  · simp; omega

theorem Memory.readRange_eq_some {m : Memory} {start n : Nat} {bytes : List Byte} :
    m.readRange start n = some bytes ↔
      (n = 0 ∨ start + n ≤ Config.memSize) ∧ bytes = (List.range n).map fun k => m.get (start + k) := by
  unfold Memory.readRange
  split
  · rename_i h
    simp [h, eq_comm]
  · rename_i h
    simp [h]

theorem Memory.readRange_eq_none {m : Memory} {start n : Nat} :
    m.readRange start n = none ↔ n ≠ 0 ∧ Config.memSize < start + n := by
  unfold Memory.readRange
  split
  · simp; omega
  · simp; omega

theorem Memory.write_wf {m m' : Memory} {a : Nat} {v : Byte} (h : m.wf) (hw : m.write a v = some m') : m'.wf := by
  obtain ⟨ha, rfl⟩ := Memory.write_eq_some.mp hw
  exact Memory.put_wf v h ha

theorem Memory.writeRange_wf {m m' : Memory} {bytes : List Byte} {start : Nat} (h : m.wf)
    (hw : m.writeRange bytes start = some m') : m'.wf := by
  obtain ⟨hb, rfl⟩ := Memory.writeRange_eq_some.mp hw
  exact Memory.putAll_wf start bytes h hb

theorem State.reset_mem_wf : State.reset.mem.wf := ⟨List.Pairwise.nil, by simp [State.reset]⟩

end Sys2Proof.Machine
end

