-- ==== Sys2Proof/Laws/Operands.lean ====
section
/-!
SUPPORT. What each shared operand operation can do: where it goes on, where it faults, and the inversion "if it
answers next, then ...". The meanings' proofs cite these instead of unfolding the operations.
-/

namespace Sys2Proof.Machine

variable {t : State}

/-! ### Register operands (R23) -/

theorem withReg_lt {x : RegIndex} (h : x < 16) (k : Fin 16 → Host.Outcome State Fault Refusal) :
    withReg x k = k ⟨x, h⟩ := dif_pos h

@[simp] theorem withReg_val (r : Fin 16) (k : Fin 16 → Host.Outcome State Fault Refusal) : withReg r.val k = k r :=
  dif_pos r.isLt

theorem withReg_ge {x : RegIndex} (h : ¬x < 16) (k : Fin 16 → Host.Outcome State Fault Refusal) :
    withReg x k = .fault (.invalidRegister x) := dif_neg h

theorem withRegs_lt {x y : RegIndex} (hx : x < 16) (hy : y < 16)
    (k : Fin 16 → Fin 16 → Host.Outcome State Fault Refusal) : withRegs x y k = k ⟨x, hx⟩ ⟨y, hy⟩ := by
  rw [withRegs, withReg_lt hx, withReg_lt hy]

theorem withReg_next {x : RegIndex} {k : Fin 16 → Host.Outcome State Fault Refusal} (h : withReg x k = .next t) :
    ∃ r : Fin 16, r.val = x ∧ k r = .next t := by
  unfold withReg at h
  split at h
  · rename_i hx
    exact ⟨⟨x, hx⟩, rfl, h⟩
  · cases h

theorem withRegs_next {x y : RegIndex} {k : Fin 16 → Fin 16 → Host.Outcome State Fault Refusal}
    (h : withRegs x y k = .next t) : ∃ r q : Fin 16, r.val = x ∧ q.val = y ∧ k r q = .next t := by
  obtain ⟨r, hr, h⟩ := withReg_next h
  obtain ⟨q, hq, h⟩ := withReg_next h
  exact ⟨r, q, hr, hq, h⟩

/-- A register operand faults by its index or by what follows. -/
theorem withReg_fault {x : RegIndex} {k : Fin 16 → Host.Outcome State Fault Refusal} {f : Fault}
    (h : withReg x k = .fault f) : (¬x < 16 ∧ f = .invalidRegister x) ∨ ∃ r : Fin 16, r.val = x ∧ k r = .fault f := by
  unfold withReg raise at h
  split at h
  · rename_i hx
    exact .inr ⟨⟨x, hx⟩, rfl, h⟩
  · rename_i hx
    cases h
    exact .inl ⟨hx, rfl⟩

theorem withRegs_fault {x y : RegIndex} {k : Fin 16 → Fin 16 → Host.Outcome State Fault Refusal} {f : Fault}
    (h : withRegs x y k = .fault f) :
    (¬x < 16 ∧ f = .invalidRegister x) ∨ (¬y < 16 ∧ f = .invalidRegister y) ∨
      ∃ r q : Fin 16, r.val = x ∧ q.val = y ∧ k r q = .fault f := by
  rcases withReg_fault h with h | ⟨r, hr, h⟩
  · exact .inl h
  · rcases withReg_fault h with h | ⟨q, hq, h⟩
    · exact .inr (.inl h)
    · exact .inr (.inr ⟨r, q, hr, hq, h⟩)

/-! ### The key operand (R158, R159) -/

theorem withKey_le {s : State} {r : Fin 16} (h : (s.reg r).toNat ≤ 15) (k : Nat → Host.Outcome State Fault Refusal) :
    withKey s r k = k (s.reg r).toNat := if_neg (by omega)

theorem withKey_gt {s : State} {r : Fin 16} (h : 15 < (s.reg r).toNat) (k : Nat → Host.Outcome State Fault Refusal) :
    withKey s r k = .fault (.invalidKey (s.reg r)) := if_pos h

theorem withKey_next {s : State} {r : Fin 16} {k : Nat → Host.Outcome State Fault Refusal}
    (h : withKey s r k = .next t) : (s.reg r).toNat ≤ 15 ∧ k (s.reg r).toNat = .next t := by
  unfold withKey at h
  split at h
  · cases h
  · exact ⟨by omega, h⟩

theorem withKey_fault {s : State} {r : Fin 16} {k : Nat → Host.Outcome State Fault Refusal} {f : Fault}
    (h : withKey s r k = .fault f) :
    (15 < (s.reg r).toNat ∧ f = .invalidKey (s.reg r)) ∨ k (s.reg r).toNat = .fault f := by
  unfold withKey raise at h
  split at h
  · cases h
    exact .inl ⟨by assumption, rfl⟩
  · exact .inr h

/-! ### The bytes at I (R68) -/

theorem withBytesAtI_in {s : State} {n : Nat} (h : n = 0 ∨ s.i.toNat + n ≤ 4096)
    (k : List Byte → Host.Outcome State Fault Refusal) :
    withBytesAtI s n k = k ((List.range n).map fun j => s.mem.get (s.i.toNat + j)) := by
  have : s.mem.readRange s.i.toNat n = some ((List.range n).map fun j => s.mem.get (s.i.toNat + j)) :=
    Memory.readRange_eq_some.mpr ⟨h, rfl⟩
  simp [withBytesAtI, this]

theorem withBytesAtI_out {s : State} {n : Nat} (h0 : n ≠ 0) (h : 4096 < s.i.toNat + n)
    (k : List Byte → Host.Outcome State Fault Refusal) : withBytesAtI s n k = .fault (.indexOutOfBounds s.i) := by
  have : s.mem.readRange s.i.toNat n = none := Memory.readRange_eq_none.mpr ⟨h0, h⟩
  simp [withBytesAtI, this, raise]

theorem withBytesAtI_next {s : State} {n : Nat} {k : List Byte → Host.Outcome State Fault Refusal}
    (h : withBytesAtI s n k = .next t) :
    (n = 0 ∨ s.i.toNat + n ≤ 4096) ∧ k ((List.range n).map fun j => s.mem.get (s.i.toNat + j)) = .next t := by
  unfold withBytesAtI at h
  split at h
  · rename_i bytes hb
    obtain ⟨h1, rfl⟩ := Memory.readRange_eq_some.mp hb
    exact ⟨h1, h⟩
  · cases h

theorem storeAtI_in {s : State} {bytes : List Byte} (h : s.i.toNat + bytes.length ≤ 4096) :
    storeAtI s bytes = .next (s.setMem (s.mem.putAll s.i.toNat bytes)) := by
  have : s.mem.writeRange bytes s.i.toNat = some (s.mem.putAll s.i.toNat bytes) :=
    Memory.writeRange_eq_some.mpr ⟨h, rfl⟩
  simp [storeAtI, this]

theorem storeAtI_out {s : State} {bytes : List Byte} (h : 4096 < s.i.toNat + bytes.length) :
    storeAtI s bytes = .fault (.indexOutOfBounds s.i) := by
  have : s.mem.writeRange bytes s.i.toNat = none := Memory.writeRange_eq_none.mpr h
  simp [storeAtI, this, raise]

theorem storeAtI_next {s : State} {bytes : List Byte} (h : storeAtI s bytes = .next t) :
    s.i.toNat + bytes.length ≤ 4096 ∧ t = s.setMem (s.mem.putAll s.i.toNat bytes) := by
  unfold storeAtI at h
  split at h
  · rename_i m hm
    obtain ⟨h1, rfl⟩ := Memory.writeRange_eq_some.mp hm
    cases h
    exact ⟨h1, rfl⟩
  · cases h

theorem withBytesAtI_fault {s : State} {n : Nat} {k : List Byte → Host.Outcome State Fault Refusal} {f : Fault}
    (h : withBytesAtI s n k = .fault f) :
    (f = .indexOutOfBounds s.i ∧ n ≠ 0 ∧ 4096 < s.i.toNat + n) ∨ ∃ bytes, k bytes = .fault f := by
  unfold withBytesAtI raise at h
  split at h
  · exact .inr ⟨_, h⟩
  · rename_i hr
    cases h
    exact .inl ⟨rfl, Memory.readRange_eq_none.mp hr⟩

theorem storeAtI_fault {s : State} {bytes : List Byte} {f : Fault} (h : storeAtI s bytes = .fault f) :
    f = .indexOutOfBounds s.i ∧ 4096 < s.i.toNat + bytes.length := by
  unfold storeAtI raise at h
  split at h
  · cases h
  · rename_i hr
    cases h
    exact ⟨rfl, Memory.writeRange_eq_none.mp hr⟩

/-! ### The step -/

theorem fetch_eq_ok {s : State} {w : Word} : fetch s = .ok w ↔ s.mem.readWord s.pc.toNat = some w := by
  unfold fetch
  split
  · rename_i w' h
    simp [h]
  · rename_i h
    simp [h]

theorem fetchInstr_eq_ok {s : State} {i : Instr} :
    fetchInstr s = .ok i ↔ ∃ w, s.mem.readWord s.pc.toNat = some w ∧ decodeWord w = some i := by
  unfold fetchInstr fetch
  split
  · rename_i f h
    split at h
    · cases h
    · rename_i h'
      simp [h']
  · rename_i w h
    split at h
    · rename_i w' h'
      cases h
      split
      · rename_i j hj
        simp [h', hj]
      · rename_i hj
        simp [h', hj]
    · cases h

/-- What a step that answers next has done: fetched a word, decoded it, and run it with PC past it. -/
theorem step_next {s : State} (h : step s = .next t) :
    ∃ w i, s.mem.readWord s.pc.toNat = some w ∧ decodeWord w = some i ∧ exec i s.advance = .next t := by
  unfold step at h
  split at h
  · cases h
  · rename_i i hi
    obtain ⟨w, hw, hd⟩ := fetchInstr_eq_ok.mp hi
    exact ⟨w, i, hw, hd, h⟩

end Sys2Proof.Machine
end

