-- ==== Sys2Proof/Laws/Display.lean ====
section
/-!
SUPPORT. The framebuffer: what one toggle does to every cell, which cells a sprite has, and what a whole draw does.
-/

namespace Sys2Proof.Machine

theorem cell_toggle (fb : Framebuffer) (k j : Nat) (hk : k < 2048) :
    cell (toggle fb k) j = if j = k then !cell fb k else cell fb j := by
  have h1 : k / 64 < 32 := by omega
  unfold cell toggle
  simp only [Config.fbWidth, h1, dif_pos]
  by_cases hj : j / 64 < 32
  · simp only [hj, dif_pos, Vector.getElem_set]
    by_cases hrow : k / 64 = j / 64
    · have hmod : k % 64 < 64 := Nat.mod_lt _ (by omega)
      simp only [hrow, if_true, BitVec.getLsbD_xor, BitVec.getLsbD_twoPow]
      by_cases hcol : k % 64 = j % 64
      · have : j = k := by omega
        simp [this, hmod]
      · have : j ≠ k := fun e => hcol (by rw [e])
        simp [hcol, this]
    · have : j ≠ k := fun e => hrow (by rw [e])
      simp [hrow, this]
  · have : j ≠ k := fun e => hj (by omega)
    simp [hj, this]

@[simp] theorem cell_blankScreen (k : Nat) : cell blankScreen k = false := by
  unfold cell blankScreen
  split <;> simp

/-- Cells outside FB[0..2047] read false and are never touched. -/
theorem cell_out {fb : Framebuffer} {k : Nat} (h : 2048 ≤ k) : cell fb k = false := by
  have : ¬k / 64 < 32 := by omega
  simp [cell, this]

theorem foldl_plot (cells : List Nat) (fb : Framebuffer) (c : Bool) (hlt : ∀ k ∈ cells, k < 2048) (hnd : cells.Nodup) :
    (∀ j, cell (cells.foldl plot (fb, c)).1 j = (cell fb j ^^ decide (j ∈ cells))) ∧
      (cells.foldl plot (fb, c)).2 = (c || cells.any (cell fb)) := by
  induction cells generalizing fb c with
  | nil => simp
  | cons k ks ih =>
    have hk := hlt k (by simp)
    have hnd' := List.nodup_cons.mp hnd
    obtain ⟨h1, h2⟩ := ih (toggle fb k) (c || cell fb k) (fun j hj => hlt j (by simp [hj])) hnd'.2
    rw [List.foldl_cons]
    refine ⟨fun j => ?_, ?_⟩
    · show cell (ks.foldl plot (toggle fb k, c || cell fb k)).1 j = _
      rw [h1 j, cell_toggle fb k j hk]
      by_cases hj : j = k
      · subst hj
        simp [hnd'.1]
      · simp [hj]
    · show (ks.foldl plot (toggle fb k, c || cell fb k)).2 = _
      rw [h2, List.any_cons, ← Bool.or_assoc]
      congr 1
      rw [Bool.eq_iff_iff, List.any_eq_true, List.any_eq_true]
      constructor
      · rintro ⟨j, hj, hc⟩
        have : j ≠ k := fun e => hnd'.1 (e ▸ hj)
        exact ⟨j, hj, by simpa [cell_toggle fb k j hk, this] using hc⟩
      · rintro ⟨j, hj, hc⟩
        have : j ≠ k := fun e => hnd'.1 (e ▸ hj)
        exact ⟨j, hj, by simpa [cell_toggle fb k j hk, this] using hc⟩

/-- A draw XORs exactly the given cells (R141). -/
theorem cell_plotAll {cells : List Nat} (fb : Framebuffer) (hlt : ∀ k ∈ cells, k < 2048) (hnd : cells.Nodup) (j : Nat) :
    cell (plotAll fb cells).1 j = (cell fb j ^^ decide (j ∈ cells)) := (foldl_plot cells fb false hlt hnd).1 j

/-- A draw collides when one of the given cells was on (R143). -/
theorem collision_plotAll {cells : List Nat} (fb : Framebuffer) (hlt : ∀ k ∈ cells, k < 2048) (hnd : cells.Nodup) :
    (plotAll fb cells).2 = cells.any (cell fb) := by
  rw [plotAll, (foldl_plot cells fb false hlt hnd).2, Bool.false_or]

theorem mem_rowCells {x0 y k : Nat} {b : Byte} :
    k ∈ rowCells x0 y b ↔
      y < 32 ∧ ∃ c, c < 8 ∧ x0 + c < 64 ∧ b.getLsbD (7 - c) = true ∧ k = y * 64 + (x0 + c) := by
  unfold rowCells
  split
  · rename_i h
    simp only [List.mem_map, List.mem_filter, List.mem_range, Bool.and_eq_true, decide_eq_true_eq]
    constructor
    · rintro ⟨c, ⟨hc, hx, hb⟩, rfl⟩
      exact ⟨h, c, hc, hx, hb, rfl⟩
    · rintro ⟨_, c, hc, hx, hb, rfl⟩
      exact ⟨c, ⟨hc, hx, hb⟩, rfl⟩
  · rename_i h
    simp only [List.not_mem_nil, false_iff]
    rintro ⟨h', _⟩
    exact h h'

theorem mem_spriteCells {x0 y k : Nat} {rows : List Byte} :
    k ∈ spriteCells x0 y rows ↔ ∃ (r : Nat) (h : r < rows.length), k ∈ rowCells x0 (y + r) rows[r] := by
  induction rows generalizing y with
  | nil => simp [spriteCells]
  | cons b rows ih =>
    simp only [spriteCells, List.mem_append, ih, List.length_cons]
    constructor
    · rintro (h | ⟨r, hr, h⟩)
      · exact ⟨0, by omega, by simpa using h⟩
      · refine ⟨r + 1, by omega, ?_⟩
        have e : y + (r + 1) = y + 1 + r := by omega
        simpa [e] using h
    · rintro ⟨r, hr, h⟩
      cases r with
      | zero => exact .inl (by simpa using h)
      | succ r =>
        refine .inr ⟨r, by omega, ?_⟩
        have e : y + (r + 1) = y + 1 + r := by omega
        simpa [e] using h

/-- "a computed pixel index is invalid (should not occur given the clipping rule ...)" (R141): it never is. -/
theorem spriteCells_lt {x0 y k : Nat} {rows : List Byte} (h : k ∈ spriteCells x0 y rows) : k < 2048 := by
  obtain ⟨r, hr, h⟩ := mem_spriteCells.mp h
  obtain ⟨hy, c, _, hx, _, rfl⟩ := mem_rowCells.mp h
  omega

theorem rowCells_nodup (x0 y : Nat) (b : Byte) : (rowCells x0 y b).Nodup := by
  unfold rowCells
  split
  · refine List.Nodup.map (fun a c h => by simpa using h) (List.Nodup.filter _ List.nodup_range)
  · exact List.nodup_nil

theorem spriteCells_nodup (x0 y : Nat) (rows : List Byte) : (spriteCells x0 y rows).Nodup := by
  induction rows generalizing y with
  | nil => exact List.nodup_nil
  | cons b rows ih =>
    refine List.Nodup.append (rowCells_nodup x0 y b) (ih (y + 1)) fun k h1 h2 => ?_
    obtain ⟨_, c, _, hx, _, rfl⟩ := mem_rowCells.mp h1
    obtain ⟨r, hr, h2⟩ := mem_spriteCells.mp h2
    obtain ⟨_, c', _, hx', _, e⟩ := mem_rowCells.mp h2
    omega

/-- The defensive check of DXYN passes for every sprite (R141, U5). -/
theorem spriteCells_find (x0 y : Nat) (rows : List Byte) :
    (spriteCells x0 y rows).find? (fun k => decide (Config.fbWidth * Config.fbHeight ≤ k)) = none := by
  rw [List.find?_eq_none]
  intro k hk
  have := spriteCells_lt hk
  simp only [Config.fbWidth, Config.fbHeight, decide_eq_true_eq]
  omega

/-- All DXYN can do once its operands are read: the index fault, or the draw (R141). -/
theorem execDrw_eq (rx ry : Fin 16) (n : Nibble) (s : State) :
    execDrw rx.val ry.val n s = withBytesAtI s n.toNat fun rows =>
      .next (s.draw (spriteCells ((s.reg rx).toNat % 64) ((s.reg ry).toNat % 32) rows)) := by
  unfold execDrw
  rw [withRegs_lt rx.isLt ry.isLt]
  congr 1
  funext rows
  simp only [spriteCells_find]

end Sys2Proof.Machine
end

