-- ==== Sys2Proof/Laws/Encoding.lean ====
section
/-!
SUPPORT. Words and fields as numbers: what the encoder's formats and the decoder's slices say of `toNat`, so that a
question about an encoding is one of linear arithmetic.
-/

namespace Sys2Proof

theorem toNat_append_eq {m n : Nat} (a : BitVec m) (b : BitVec n) : (a ++ b).toNat = a.toNat * 2 ^ n + b.toNat := by
  rw [BitVec.toNat_append, ← Nat.shiftLeft_add_eq_or_of_lt b.isLt, Nat.shiftLeft_eq]

theorem addrWord_toNat (p : Nibble) (nnn : Addr12) : (addrWord p nnn).toNat = p.toNat * 4096 + nnn.toNat :=
  toNat_append_eq p nnn

@[simp] theorem regField_toNat {x : RegIndex} : (regField x).toNat = x % 16 := by simp [regField]

theorem regImmWord_toNat (p : Nibble) (x : RegIndex) (nn : Byte) :
    (regImmWord p x nn).toNat = p.toNat * 4096 + (x % 16) * 256 + nn.toNat := by
  unfold regImmWord
  rw [toNat_append_eq, toNat_append_eq, regField_toNat]
  omega

theorem regRegWord_toNat (p x y n : Nibble) :
    (regRegWord p x y n).toNat = p.toNat * 4096 + x.toNat * 256 + y.toNat * 16 + n.toNat := by
  unfold regRegWord
  rw [toNat_append_eq, toNat_append_eq, toNat_append_eq]
  omega

/-! ### The slices of R81 -/

theorem fieldsOf_p (w : Word) : (fieldsOf w).p.toNat = w.toNat / 4096 := by
  have := w.isLt
  simp [fieldsOf, BitVec.extractLsb, Nat.shiftRight_eq_div_pow]
  omega

theorem fieldsOf_x (w : Word) : (fieldsOf w).x.toNat = w.toNat / 256 % 16 := by
  simp [fieldsOf, BitVec.extractLsb, Nat.shiftRight_eq_div_pow]

theorem fieldsOf_y (w : Word) : (fieldsOf w).y.toNat = w.toNat / 16 % 16 := by
  simp [fieldsOf, BitVec.extractLsb, Nat.shiftRight_eq_div_pow]

theorem fieldsOf_n (w : Word) : (fieldsOf w).n.toNat = w.toNat % 16 := by
  simp [fieldsOf, BitVec.extractLsb]

theorem fieldsOf_nn (w : Word) : (fieldsOf w).nn.toNat = w.toNat % 256 := by
  simp [fieldsOf, BitVec.extractLsb]

theorem fieldsOf_nnn (w : Word) : (fieldsOf w).nnn.toNat = w.toNat % 4096 := by
  simp [fieldsOf, BitVec.extractLsb]

/-! ### The three masks of R86 -/

theorem and_mask_p (w : Word) : w &&& 0xF000#16 = (fieldsOf w).p ++ 0#12 := by
  apply BitVec.eq_of_getLsbD_eq
  intro i hi
  rw [BitVec.getLsbD_and, BitVec.getLsbD_append]
  interval_cases i <;> simp [fieldsOf, BitVec.extractLsb]

theorem and_mask_p_n (w : Word) : w &&& 0xF00F#16 = (fieldsOf w).p ++ 0#8 ++ (fieldsOf w).n := by
  apply BitVec.eq_of_getLsbD_eq
  intro i hi
  rw [BitVec.getLsbD_and, BitVec.getLsbD_append, BitVec.getLsbD_append]
  interval_cases i <;> simp [fieldsOf, BitVec.extractLsb]

theorem and_mask_p_nn (w : Word) : w &&& 0xF0FF#16 = (fieldsOf w).p ++ 0#4 ++ (fieldsOf w).nn := by
  apply BitVec.eq_of_getLsbD_eq
  intro i hi
  rw [BitVec.getLsbD_and, BitVec.getLsbD_append, BitVec.getLsbD_append]
  interval_cases i <;> simp [fieldsOf, BitVec.extractLsb]

/-! ### The fields of an encoded word -/

theorem fieldsOf_addrWord (p : Nibble) (nnn : Addr12) :
    (fieldsOf (addrWord p nnn)).p = p ∧ (fieldsOf (addrWord p nnn)).nnn = nnn := by
  have h := addrWord_toNat p nnn
  have h1 := p.isLt
  have h2 := nnn.isLt
  constructor
  · apply BitVec.eq_of_toNat_eq
    rw [fieldsOf_p]
    omega
  · apply BitVec.eq_of_toNat_eq
    rw [fieldsOf_nnn]
    omega

theorem fieldsOf_regImmWord (p : Nibble) (x : RegIndex) (nn : Byte) :
    (fieldsOf (regImmWord p x nn)).p = p ∧ (fieldsOf (regImmWord p x nn)).x = regField x ∧
      (fieldsOf (regImmWord p x nn)).nn = nn := by
  have h := regImmWord_toNat p x nn
  have h1 := p.isLt
  have h2 := nn.isLt
  have h3 := @regField_toNat x
  refine ⟨?_, ?_, ?_⟩
  · apply BitVec.eq_of_toNat_eq
    rw [fieldsOf_p]
    omega
  · apply BitVec.eq_of_toNat_eq
    rw [fieldsOf_x]
    omega
  · apply BitVec.eq_of_toNat_eq
    rw [fieldsOf_nn]
    omega

theorem fieldsOf_regRegWord (p x y n : Nibble) :
    (fieldsOf (regRegWord p x y n)).p = p ∧ (fieldsOf (regRegWord p x y n)).x = x ∧
      (fieldsOf (regRegWord p x y n)).y = y ∧ (fieldsOf (regRegWord p x y n)).n = n := by
  have h := regRegWord_toNat p x y n
  have h1 := p.isLt
  have h2 := x.isLt
  have h3 := y.isLt
  have h4 := n.isLt
  refine ⟨?_, ?_, ?_, ?_⟩
  · apply BitVec.eq_of_toNat_eq
    rw [fieldsOf_p]
    omega
  · apply BitVec.eq_of_toNat_eq
    rw [fieldsOf_x]
    omega
  · apply BitVec.eq_of_toNat_eq
    rw [fieldsOf_y]
    omega
  · apply BitVec.eq_of_toNat_eq
    rw [fieldsOf_n]
    omega

/-- Memory's two bytes of a word make the word again (R57). -/
theorem wordBytes_append (w : Word) : w.extractLsb 15 8 ++ w.extractLsb 7 0 = w := by
  apply BitVec.eq_of_toNat_eq
  have h := toNat_append_eq (w.extractLsb 15 8) (w.extractLsb 7 0)
  have hw := w.isLt
  have h1 : (w.extractLsb 15 8).toNat = w.toNat / 256 := by
    simp [BitVec.extractLsb, Nat.shiftRight_eq_div_pow]
    omega
  have h2 : (w.extractLsb 7 0).toNat = w.toNat % 256 := by simp [BitVec.extractLsb]
  rw [h, h1, h2]
  omega

/-! ### An encoded word under its row's mask -/

theorem addrWord_masked (p : Nibble) (nnn : Addr12) : addrWord p nnn &&& 0xF000#16 = p ++ 0#12 := by
  rw [and_mask_p, (fieldsOf_addrWord p nnn).1]

theorem regImmWord_masked (p : Nibble) (x : RegIndex) (nn : Byte) : regImmWord p x nn &&& 0xF000#16 = p ++ 0#12 := by
  rw [and_mask_p, (fieldsOf_regImmWord p x nn).1]

theorem regImmWord_masked_nn (p : Nibble) (x : RegIndex) (nn : Byte) :
    regImmWord p x nn &&& 0xF0FF#16 = p ++ 0#4 ++ nn := by
  rw [and_mask_p_nn, (fieldsOf_regImmWord p x nn).1, (fieldsOf_regImmWord p x nn).2.2]

theorem regRegWord_masked (p x y n : Nibble) : regRegWord p x y n &&& 0xF000#16 = p ++ 0#12 := by
  rw [and_mask_p, (fieldsOf_regRegWord p x y n).1]

theorem regRegWord_masked_n (p x y n : Nibble) : regRegWord p x y n &&& 0xF00F#16 = p ++ 0#8 ++ n := by
  rw [and_mask_p_n, (fieldsOf_regRegWord p x y n).1, (fieldsOf_regRegWord p x y n).2.2.2]

end Sys2Proof
end

