-- ==== Sys2Proof/Laws/Exec.lean ====
section
/-!
SUPPORT. One lemma per instruction that says once when it answers a next state and which one. Later proofs, those of what
an instruction leaves unchanged among them, go through these lemmas and unfold no meaning.
-/

namespace Sys2Proof.Machine

variable {s t : State}

/-! ### The shared operand operations as equivalences -/

theorem withReg_next_iff {x : RegIndex} {k : Fin 16 → Host.Outcome State Fault Refusal} :
    withReg x k = .next t ↔ ∃ r : Fin 16, r.val = x ∧ k r = .next t :=
  ⟨withReg_next, by rintro ⟨r, rfl, h⟩; rwa [withReg_val]⟩

theorem withRegs_next_iff {x y : RegIndex} {k : Fin 16 → Fin 16 → Host.Outcome State Fault Refusal} :
    withRegs x y k = .next t ↔ ∃ r q : Fin 16, r.val = x ∧ q.val = y ∧ k r q = .next t :=
  ⟨withRegs_next, by rintro ⟨r, q, rfl, rfl, h⟩; rwa [withRegs, withReg_val, withReg_val]⟩

theorem withKey_next_iff {r : Fin 16} {k : Nat → Host.Outcome State Fault Refusal} :
    withKey s r k = .next t ↔ (s.reg r).toNat ≤ 15 ∧ k (s.reg r).toNat = .next t :=
  ⟨withKey_next, fun ⟨h, h'⟩ => by rwa [withKey_le h]⟩

theorem withBytesAtI_next_iff {n : Nat} {k : List Byte → Host.Outcome State Fault Refusal} :
    withBytesAtI s n k = .next t ↔
      (n = 0 ∨ s.i.toNat + n ≤ 4096) ∧ k ((List.range n).map fun j => s.mem.get (s.i.toNat + j)) = .next t :=
  ⟨withBytesAtI_next, fun ⟨h, h'⟩ => by rwa [withBytesAtI_in h]⟩

theorem storeAtI_next_iff {bytes : List Byte} :
    storeAtI s bytes = .next t ↔
      s.i.toNat + bytes.length ≤ 4096 ∧ t = s.setMem (s.mem.putAll s.i.toNat bytes) :=
  ⟨storeAtI_next, fun ⟨h, h'⟩ => by rw [storeAtI_in h, h']⟩

theorem next_inj_iff {a : State} : (Host.Outcome.next a : Host.Outcome State Fault Refusal) = .next t ↔ t = a :=
  ⟨fun h => by cases h; rfl, fun h => by rw [h]⟩

/-! ### spec/41_alu.md -/

theorem exec_ldByte_next {x : RegIndex} {nn : Byte} :
    exec (.ldByte x nn) s = .next t ↔ ∃ r : Fin 16, r.val = x ∧ t = s.setReg r nn := by
  simp only [exec, execLdByte, withReg_next_iff, next_inj_iff]

theorem exec_addByte_next {x : RegIndex} {nn : Byte} :
    exec (.addByte x nn) s = .next t ↔ ∃ r : Fin 16, r.val = x ∧ t = s.setReg r (s.reg r + nn) := by
  simp only [exec, execAddByte, withReg_next_iff, next_inj_iff]

theorem exec_ldReg_next {x y : RegIndex} :
    exec (.ldReg x y) s = .next t ↔ ∃ r q : Fin 16, r.val = x ∧ q.val = y ∧ t = s.setReg r (s.reg q) := by
  simp only [exec, execLdReg, withRegs_next_iff, next_inj_iff]

theorem exec_orReg_next {x y : RegIndex} :
    exec (.orReg x y) s = .next t ↔ ∃ r q : Fin 16, r.val = x ∧ q.val = y ∧ t = s.setReg r (s.reg r ||| s.reg q) := by
  simp only [exec, execOrReg, withRegs_next_iff, next_inj_iff]

theorem exec_andReg_next {x y : RegIndex} :
    exec (.andReg x y) s = .next t ↔ ∃ r q : Fin 16, r.val = x ∧ q.val = y ∧ t = s.setReg r (s.reg r &&& s.reg q) := by
  simp only [exec, execAndReg, withRegs_next_iff, next_inj_iff]

theorem exec_xorReg_next {x y : RegIndex} :
    exec (.xorReg x y) s = .next t ↔ ∃ r q : Fin 16, r.val = x ∧ q.val = y ∧ t = s.setReg r (s.reg r ^^^ s.reg q) := by
  simp only [exec, execXorReg, withRegs_next_iff, next_inj_iff]

theorem exec_addReg_next {x y : RegIndex} :
    exec (.addReg x y) s = .next t ↔ ∃ r q : Fin 16, r.val = x ∧ q.val = y ∧ t = s.setRegFlag r (s.reg r + s.reg q) (carryOf (s.reg r) (s.reg q)) := by
  simp only [exec, execAddReg, withRegs_next_iff, next_inj_iff]

theorem exec_subReg_next {x y : RegIndex} :
    exec (.subReg x y) s = .next t ↔ ∃ r q : Fin 16, r.val = x ∧ q.val = y ∧ t = s.setRegFlag r (s.reg r - s.reg q) (notBorrowOf (s.reg r) (s.reg q)) := by
  simp only [exec, execSubReg, withRegs_next_iff, next_inj_iff]

theorem exec_shr_next {x : RegIndex} {y : Nibble} :
    exec (.shr x y) s = .next t ↔ ∃ r : Fin 16, r.val = x ∧ t = s.setRegFlag r (s.reg r >>> 1) (bitOutRight (s.reg r)) := by
  simp only [exec, execShr, withReg_next_iff, next_inj_iff]

theorem exec_subnReg_next {x y : RegIndex} :
    exec (.subnReg x y) s = .next t ↔ ∃ r q : Fin 16, r.val = x ∧ q.val = y ∧ t = s.setRegFlag r (s.reg q - s.reg r) (notBorrowOf (s.reg q) (s.reg r)) := by
  simp only [exec, execSubnReg, withRegs_next_iff, next_inj_iff]

theorem exec_shl_next {x : RegIndex} {y : Nibble} :
    exec (.shl x y) s = .next t ↔ ∃ r : Fin 16, r.val = x ∧ t = s.setRegFlag r (s.reg r <<< 1) (bitOutLeft (s.reg r)) := by
  simp only [exec, execShl, withReg_next_iff, next_inj_iff]

theorem exec_rnd_next {x : RegIndex} {nn : Byte} :
    exec (.rnd x nn) s = .next t ↔ ∃ r : Fin 16, r.val = x ∧ t = s.drawn.setReg r (s.randomByte &&& nn) := by
  simp only [exec, execRnd, withReg_next_iff, next_inj_iff]

/-! ### spec/42_display.md -/

theorem exec_cls_next : exec .cls s = .next t ↔ t = s.show blankScreen := by
  simp only [exec, execCls, next_inj_iff]

/-- The sprite DXYN reads and where it falls (R141). -/
def State.spriteAt (s : State) (r q : Fin 16) (n : Nibble) : List Nat :=
  spriteCells ((s.reg r).toNat % 64) ((s.reg q).toNat % 32) ((List.range n.toNat).map fun j => s.mem.get (s.i.toNat + j))

theorem State.spriteAt_lt {s : State} {r q : Fin 16} {n : Nibble} : ∀ k ∈ s.spriteAt r q n, k < 2048 :=
  fun _ h => spriteCells_lt h

theorem State.spriteAt_nodup (s : State) (r q : Fin 16) (n : Nibble) : (s.spriteAt r q n).Nodup :=
  spriteCells_nodup _ _ _

theorem exec_drw_next {x y : RegIndex} {n : Nibble} :
    exec (.drw x y n) s = .next t ↔ ∃ r q : Fin 16, r.val = x ∧ q.val = y ∧
      (n.toNat = 0 ∨ s.i.toNat + n.toNat ≤ 4096) ∧ t = s.draw (s.spriteAt r q n) := by
  have key : ∀ r q : Fin 16, exec (.drw r.val q.val n) s = .next t ↔
      (n.toNat = 0 ∨ s.i.toNat + n.toNat ≤ 4096) ∧ t = s.draw (s.spriteAt r q n) := by
    intro r q
    simp only [exec, execDrw_eq, withBytesAtI_next_iff, next_inj_iff, State.spriteAt]
  constructor
  · intro h
    obtain ⟨r, q, rfl, rfl, -⟩ := withRegs_next (show execDrw x y n s = .next t from h)
    exact ⟨r, q, rfl, rfl, (key r q).mp h⟩
  · rintro ⟨r, q, rfl, rfl, h⟩
    exact (key r q).mpr h

/-! ### spec/43_control_flow.md -/

theorem exec_jp_next {nnn : Addr12} : exec (.jp nnn) s = .next t ↔ t = s.setPc (addrOperand nnn) := by
  simp only [exec, execJp, next_inj_iff]

theorem exec_jpV0_next {nnn : Addr12} :
    exec (.jpV0 nnn) s = .next t ↔ t = s.setPc (addrOperand nnn + wide (s.reg 0)) := by
  simp only [exec, execJpV0, next_inj_iff]

theorem exec_call_next {nnn : Addr12} :
    exec (.call nnn) s = .next t ↔ ∃ h : s.sp.val < 16,
      t = { s with stack := s.stack.set s.sp.val s.pc, sp := ⟨s.sp.val + 1, by omega⟩, pc := addrOperand nnn } := by
  simp only [exec, execCall]
  constructor
  · intro h
    split at h
    · rename_i u hu
      obtain ⟨hs, rfl⟩ := State.push_eq_some.mp hu
      cases h
      exact ⟨hs, rfl⟩
    · cases h
  · rintro ⟨hs, rfl⟩
    rw [State.push_eq_some.mpr ⟨hs, rfl⟩]
    rfl

theorem exec_ret_next :
    exec .ret s = .next t ↔ ∃ (_ : s.sp.val ≠ 0) (h' : s.sp.val - 1 < 16),
      t = { s with sp := ⟨s.sp.val - 1, by omega⟩, pc := s.stack[s.sp.val - 1] } := by
  simp only [exec, execRet]
  constructor
  · intro h
    split at h
    · rename_i w u hu
      obtain ⟨hs, hs', rfl, rfl⟩ := State.pop_eq_some.mp hu
      cases h
      exact ⟨hs, hs', rfl⟩
    · cases h
  · rintro ⟨hs, hs', rfl⟩
    rw [State.pop_eq_some.mpr ⟨hs, hs', rfl, rfl⟩]
    rfl

theorem exec_seByte_next {x : RegIndex} {nn : Byte} :
    exec (.seByte x nn) s = .next t ↔ ∃ r : Fin 16, r.val = x ∧ t = s.skipIf (s.reg r == nn) := by
  simp only [exec, execSeByte, withReg_next_iff, next_inj_iff]

theorem exec_sneByte_next {x : RegIndex} {nn : Byte} :
    exec (.sneByte x nn) s = .next t ↔ ∃ r : Fin 16, r.val = x ∧ t = s.skipIf (s.reg r != nn) := by
  simp only [exec, execSneByte, withReg_next_iff, next_inj_iff]

theorem exec_seReg_next {x y : RegIndex} :
    exec (.seReg x y) s = .next t ↔ ∃ r q : Fin 16, r.val = x ∧ q.val = y ∧ t = s.skipIf (s.reg r == s.reg q) := by
  simp only [exec, execSeReg, withRegs_next_iff, next_inj_iff]

theorem exec_sneReg_next {x y : RegIndex} :
    exec (.sneReg x y) s = .next t ↔ ∃ r q : Fin 16, r.val = x ∧ q.val = y ∧ t = s.skipIf (s.reg r != s.reg q) := by
  simp only [exec, execSneReg, withRegs_next_iff, next_inj_iff]

theorem exec_skp_next {x : RegIndex} :
    exec (.skp x) s = .next t ↔ ∃ r : Fin 16, r.val = x ∧ (s.reg r).toNat ≤ 15 ∧
      t = s.skipIf (s.keyDown (s.reg r).toNat) := by
  simp only [exec, execSkp, withReg_next_iff, withKey_next_iff, next_inj_iff]

theorem exec_sknp_next {x : RegIndex} :
    exec (.sknp x) s = .next t ↔ ∃ r : Fin 16, r.val = x ∧ (s.reg r).toNat ≤ 15 ∧
      t = s.skipIf (!s.keyDown (s.reg r).toNat) := by
  simp only [exec, execSknp, withReg_next_iff, withKey_next_iff, next_inj_iff]

/-! ### spec/44_index_memory.md -/

theorem exec_ldI_next {nnn : Addr12} : exec (.ldI nnn) s = .next t ↔ t = s.setI (addrOperand nnn) := by
  simp only [exec, execLdI, next_inj_iff]

theorem exec_addI_next {x : RegIndex} :
    exec (.addI x) s = .next t ↔ ∃ r : Fin 16, r.val = x ∧ t = s.setI (s.i + wide (s.reg r)) := by
  simp only [exec, execAddI, withReg_next_iff, next_inj_iff]

theorem exec_ldF_next {x : RegIndex} :
    exec (.ldF x) s = .next t ↔ ∃ r : Fin 16, r.val = x ∧ t = s.setI (BitVec.ofNat 16 Config.fontBase + 5#16 * wide (s.reg r)) := by
  simp only [exec, execLdF, withReg_next_iff, next_inj_iff]

theorem exec_ldB_next {x : RegIndex} :
    exec (.ldB x) s = .next t ↔ ∃ r : Fin 16, r.val = x ∧ s.i.toNat + 3 ≤ 4096 ∧
      t = s.setMem (s.mem.putAll s.i.toNat (bcdDigits (s.reg r))) := by
  simp only [exec, execLdB, withReg_next_iff, storeAtI_next_iff]
  rfl

theorem exec_storeRegs_next {x : RegIndex} :
    exec (.storeRegs x) s = .next t ↔ ∃ r : Fin 16, r.val = x ∧ s.i.toNat + (r.val + 1) ≤ 4096 ∧
      t = s.setMem (s.mem.putAll s.i.toNat (s.regBlock r.val)) := by
  have hl : ∀ r : Fin 16, (s.regBlock r.val).length = r.val + 1 := by
    intro r
    have := r.isLt
    rw [State.length_regBlock]
    omega
  simp only [exec, execStoreRegs, withReg_next_iff, storeAtI_next_iff, hl]

theorem exec_loadRegs_next {x : RegIndex} :
    exec (.loadRegs x) s = .next t ↔ ∃ r : Fin 16, r.val = x ∧ s.i.toNat + (r.val + 1) ≤ 4096 ∧
      t = s.setRegs ((List.range (r.val + 1)).map fun j => s.mem.get (s.i.toNat + j)) := by
  simp only [exec, execLoadRegs, withReg_next_iff, withBytesAtI_next_iff, next_inj_iff, Nat.add_one_ne_zero, false_or]

/-! ### spec/45_timers_keywait.md -/

theorem exec_ldVxDt_next {x : RegIndex} :
    exec (.ldVxDt x) s = .next t ↔ ∃ r : Fin 16, r.val = x ∧ t = s.setReg r s.dt := by
  simp only [exec, execLdVxDt, withReg_next_iff, next_inj_iff]

theorem exec_ldDtVx_next {x : RegIndex} :
    exec (.ldDtVx x) s = .next t ↔ ∃ r : Fin 16, r.val = x ∧ t = s.setDt (s.reg r) := by
  simp only [exec, execLdDtVx, withReg_next_iff, next_inj_iff]

theorem exec_ldStVx_next {x : RegIndex} :
    exec (.ldStVx x) s = .next t ↔ ∃ r : Fin 16, r.val = x ∧ t = s.setSt (s.reg r) := by
  simp only [exec, execLdStVx, withReg_next_iff, next_inj_iff]

theorem exec_ldVxK_next {x : RegIndex} :
    exec (.ldVxK x) s = .next t ↔ ∃ r : Fin 16, r.val = x ∧
      ((∃ k, s.firstKey = some k ∧ t = s.setReg r (BitVec.ofNat 8 k)) ∨ (s.firstKey = none ∧ t = s.rewind)) := by
  simp only [exec, execLdVxK, withReg_next_iff]
  refine exists_congr fun r => and_congr_right fun _ => ?_
  cases h : s.firstKey with
  | some k => simp [eq_comm]
  | none => simp [eq_comm]

/-! ### No meaning refuses -/

theorem withReg_ne_refused {x : RegIndex} {k : Fin 16 → Host.Outcome State Fault Refusal} {z : Refusal}
    (hk : ∀ r, k r ≠ .refused z) : withReg x k ≠ .refused z := by
  unfold withReg raise
  split
  · exact hk _
  · exact nofun

theorem withRegs_ne_refused {x y : RegIndex} {k : Fin 16 → Fin 16 → Host.Outcome State Fault Refusal} {z : Refusal}
    (hk : ∀ r q, k r q ≠ .refused z) : withRegs x y k ≠ .refused z :=
  withReg_ne_refused fun r => withReg_ne_refused fun q => hk r q

theorem withKey_ne_refused {r : Fin 16} {k : Nat → Host.Outcome State Fault Refusal} {z : Refusal}
    (hk : ∀ n, k n ≠ .refused z) : withKey s r k ≠ .refused z := by
  unfold withKey raise
  split
  · exact nofun
  · exact hk _

theorem withBytesAtI_ne_refused {n : Nat} {k : List Byte → Host.Outcome State Fault Refusal} {z : Refusal}
    (hk : ∀ bytes, k bytes ≠ .refused z) : withBytesAtI s n k ≠ .refused z := by
  unfold withBytesAtI raise
  split
  · exact hk _
  · exact nofun

theorem storeAtI_ne_refused {bytes : List Byte} {z : Refusal} : storeAtI s bytes ≠ .refused z := by
  unfold storeAtI raise
  split <;> exact nofun

theorem exec_ne_refused (i : Instr) (s : State) (z : Refusal) : exec i s ≠ .refused z := by
  have next : ∀ t : State, (Host.Outcome.next t : Host.Outcome State Fault Refusal) ≠ .refused z :=
    fun _ => nofun
  cases i with
  | cls => exact next _
  | jp nnn => exact next _
  | jpV0 nnn => exact next _
  | ldI nnn => exact next _
  | ret =>
    simp only [exec, execRet, raise]
    split <;> exact nofun
  | call nnn =>
    simp only [exec, execCall, raise]
    split <;> exact nofun
  | seByte x nn =>
    simp only [exec, execSeByte]
    exact withReg_ne_refused fun r => next _
  | sneByte x nn =>
    simp only [exec, execSneByte]
    exact withReg_ne_refused fun r => next _
  | seReg x y =>
    simp only [exec, execSeReg]
    exact withRegs_ne_refused fun r q => next _
  | sneReg x y =>
    simp only [exec, execSneReg]
    exact withRegs_ne_refused fun r q => next _
  | drw x y n =>
    simp only [exec, execDrw]
    refine withRegs_ne_refused fun r q => withBytesAtI_ne_refused fun rows => ?_
    simp only [spriteCells_find]
    exact next _
  | skp x =>
    simp only [exec, execSkp]
    exact withReg_ne_refused fun r => withKey_ne_refused fun k => next _
  | sknp x =>
    simp only [exec, execSknp]
    exact withReg_ne_refused fun r => withKey_ne_refused fun k => next _
  | ldB x =>
    simp only [exec, execLdB]
    exact withReg_ne_refused fun r => storeAtI_ne_refused
  | storeRegs x =>
    simp only [exec, execStoreRegs]
    exact withReg_ne_refused fun r => storeAtI_ne_refused
  | loadRegs x =>
    simp only [exec, execLoadRegs]
    exact withReg_ne_refused fun r => withBytesAtI_ne_refused fun bytes => next _
  | ldVxK x =>
    simp only [exec, execLdVxK]
    refine withReg_ne_refused fun r => ?_
    split <;> exact nofun
  | ldByte x nn =>
    simp only [exec, execLdByte]
    exact withReg_ne_refused fun r => next _
  | addByte x nn =>
    simp only [exec, execAddByte]
    exact withReg_ne_refused fun r => next _
  | shr x y =>
    simp only [exec, execShr]
    exact withReg_ne_refused fun r => next _
  | shl x y =>
    simp only [exec, execShl]
    exact withReg_ne_refused fun r => next _
  | rnd x nn =>
    simp only [exec, execRnd]
    exact withReg_ne_refused fun r => next _
  | ldVxDt x =>
    simp only [exec, execLdVxDt]
    exact withReg_ne_refused fun r => next _
  | ldDtVx x =>
    simp only [exec, execLdDtVx]
    exact withReg_ne_refused fun r => next _
  | ldStVx x =>
    simp only [exec, execLdStVx]
    exact withReg_ne_refused fun r => next _
  | addI x =>
    simp only [exec, execAddI]
    exact withReg_ne_refused fun r => next _
  | ldF x =>
    simp only [exec, execLdF]
    exact withReg_ne_refused fun r => next _
  | ldReg x y =>
    simp only [exec, execLdReg]
    exact withRegs_ne_refused fun r q => next _
  | orReg x y =>
    simp only [exec, execOrReg]
    exact withRegs_ne_refused fun r q => next _
  | andReg x y =>
    simp only [exec, execAndReg]
    exact withRegs_ne_refused fun r q => next _
  | xorReg x y =>
    simp only [exec, execXorReg]
    exact withRegs_ne_refused fun r q => next _
  | addReg x y =>
    simp only [exec, execAddReg]
    exact withRegs_ne_refused fun r q => next _
  | subReg x y =>
    simp only [exec, execSubReg]
    exact withRegs_ne_refused fun r q => next _
  | subnReg x y =>
    simp only [exec, execSubnReg]
    exact withRegs_ne_refused fun r q => next _

end Sys2Proof.Machine
end

