-- ==== Sys2Proof/Laws/HostOps.lean ====
section
/-!
SUPPORT. What each host operation can do: construction, the tick, the key events, and a STEP as the host sees it.
-/

namespace Sys2Proof.Machine

variable {s t : State} {f : Fault}

/-- Construction never fails, and the memory it builds is the one that lists nothing: the font over zeros is what an
unlisted address reads as (R240, U6). -/
theorem construct_eq : construct = some State.reset := by decide +kernel

theorem reset_eq (s : State) : reset s = ({ State.reset with rndIn := s.rndIn, draws := s.draws }, .ok) := by
  simp only [reset, construct_eq]

theorem toNat_countDown (b : Byte) : (countDown b).toNat = b.toNat - 1 := by
  unfold countDown
  split
  · have := b.isLt
    bv_omega
  · omega

theorem setKey_in {k : Int} (b : Bool) (s : State) (h : 0 ≤ k ∧ k < 16) :
    setKey k b s = { s with key := s.key.setIfInBounds k.toNat b } := if_pos h

theorem setKey_out {k : Int} (b : Bool) (s : State) (h : ¬(0 ≤ k ∧ k < 16)) : setKey k b s = s := if_neg h

/-! ### STEP as the host sees it -/

/-- What the fetch and the dispatch read does not depend on the random input. -/
theorem fetchInstr_rndIn (s : State) (q : List Byte) : fetchInstr { s with rndIn := q } = fetchInstr s := rfl

theorem stepWith_next {rnd : Byte} (h : step { s with rndIn := [rnd] } = .next t) :
    stepWith rnd s = .next { t with rndIn := s.rndIn } := by
  simp only [stepWith, h]

theorem stepWith_fault {rnd : Byte} (h : step { s with rndIn := [rnd] } = .fault f) : stepWith rnd s = .fault f := by
  simp only [stepWith, h]

theorem hostStep_next {rnd : Byte} (h : stepWith rnd s = .next t) : hostStep rnd s = (t, .ok) := by
  simp only [hostStep, h]

theorem hostStep_fault {rnd : Byte} (h : stepWith rnd s = .fault f) : hostStep rnd s = (takeFault f s, .fault f) := by
  simp only [hostStep, h]

/-- The state a STEP leaves is that of a plain step with the host's byte as its random input, or that of a fault. -/
theorem hostStep_cases {rnd : Byte} {r : HostResult} (h : hostStep rnd s = (t, r)) :
    (∃ u, step { s with rndIn := [rnd] } = .next u ∧ t = { u with rndIn := s.rndIn } ∧ r = .ok) ∨
      (∃ g, step { s with rndIn := [rnd] } = .fault g ∧ t = takeFault g s ∧ r = .fault g) ∨
      ∃ z, step { s with rndIn := [rnd] } = .refused z ∧ t = s ∧ r = .noMeaning z := by
  cases hs : step { s with rndIn := [rnd] } with
  | next u =>
    simp only [hostStep, stepWith, hs, Prod.mk.injEq] at h
    exact .inl ⟨u, rfl, h.1.symm, h.2.symm⟩
  | fault g =>
    simp only [hostStep, stepWith, hs, Prod.mk.injEq] at h
    exact .inr (.inl ⟨g, rfl, h.1.symm, h.2.symm⟩)
  | refused z =>
    simp only [hostStep, stepWith, hs, Prod.mk.injEq] at h
    exact .inr (.inr ⟨z, rfl, h.1.symm, h.2.symm⟩)

/-! ### Runs -/

/-- The first operation of a run, and the rest where it has not ended. -/
theorem runOps_cons (op : HostOp) (ops : List HostOp) (s : State) :
    runOps (op :: ops) s =
      match perform op s with
      | (_, .fault g) => .fault g
      | (_, .noMeaning z) => .refused z
      | (t, _) => runOps ops t := rfl

/-- A run in two parts: the second starts where the first leads, and does not happen where the first has ended. -/
theorem runOps_append (ops more : List HostOp) (s : State) :
    runOps (ops ++ more) s =
      match runOps ops s with
      | .next t => runOps more t
      | .fault g => .fault g
      | .refused z => .refused z := by
  induction ops generalizing s with
  | nil => rfl
  | cons op ops ih =>
    rw [List.cons_append, runOps_cons, runOps_cons]
    split
    · rfl
    · rfl
    · exact ih _

theorem Schedule.start_succ (h : Schedule) (n : Nat) : h.start (n + 1) = h.start n ++ [h n] := by
  simp [Schedule.start, List.range_succ]

@[simp] theorem Schedule.after_zero (h : Schedule) (s : State) : h.after 0 s = .next s := rfl

/-- One more operation of a schedule. -/
theorem Schedule.after_succ (h : Schedule) (n : Nat) (s : State) :
    h.after (n + 1) s =
      match h.after n s with
      | .next t => runOps [h n] t
      | .fault g => .fault g
      | .refused z => .refused z := by
  rw [Schedule.after, Schedule.start_succ, runOps_append]
  rfl

/-- A schedule that has led somewhere has led somewhere at every earlier moment. -/
theorem Schedule.after_next_of_succ {h : Schedule} {n : Nat} (e : h.after (n + 1) s = .next t) :
    ∃ u, h.after n s = .next u ∧ runOps [h n] u = .next t := by
  rw [Schedule.after_succ] at e
  split at e
  · exact ⟨_, by assumption, e⟩
  · cases e
  · cases e

/-- Every finite run is the start of a schedule without end. -/
theorem exists_schedule_start (ops : List HostOp) : ∃ h : Schedule, h.start ops.length = ops := by
  refine ⟨fun n => ops.getD n .tick, List.ext_getElem (by simp [Schedule.start]) fun k h1 h2 => ?_⟩
  simp [Schedule.start, List.getD, h2]

/-- What is kept by every operation holds all along a schedule. -/
theorem Schedule.keeps {P : State → Prop} (hop : ∀ op u, P u → P (perform op u).1) {h : Schedule} {n : Nat} (h0 : P s)
    (e : h.after n s = .next t) : P t := by
  induction n generalizing t with
  | zero =>
    cases e
    exact h0
  | succ n ih =>
    obtain ⟨u, hu, e⟩ := Schedule.after_next_of_succ e
    have hp := hop (h n) u (ih hu)
    rw [runOps_cons] at e
    split at e
    · cases e
    · cases e
    · rename_i heq
      rw [heq] at hp
      cases e
      exact hp

end Sys2Proof.Machine
end

