-- ==== Sys2Proof/Laws/PerInstr.lean ====
section
/-!
SUPPORT. Laws stated for every instruction as syntax, one lemma per constructor. `EncodedRow`: the encoded word of an
instruction lies in its own row of R86, that is (w & mask) = match.
-/

namespace Sys2Proof.Laws.EncodedRow

/-- The word of the instruction is selected by the mask and match of its row (R86). -/
def Statement (i : Instr) : Prop := encodeWord i &&& i.row.mask = i.row.pattern

theorem cls : Statement .cls := by unfold Statement; decide

theorem ret : Statement .ret := by unfold Statement; decide

theorem jp (nnn : Addr12) : Statement (.jp nnn) := addrWord_masked _ _

theorem call (nnn : Addr12) : Statement (.call nnn) := addrWord_masked _ _

theorem seByte (x : RegIndex) (nn : Byte) : Statement (.seByte x nn) := regImmWord_masked _ _ _

theorem sneByte (x : RegIndex) (nn : Byte) : Statement (.sneByte x nn) := regImmWord_masked _ _ _

theorem seReg (x : RegIndex) (y : RegIndex) : Statement (.seReg x y) := regRegWord_masked_n _ _ _ _

theorem ldByte (x : RegIndex) (nn : Byte) : Statement (.ldByte x nn) := regImmWord_masked _ _ _

theorem addByte (x : RegIndex) (nn : Byte) : Statement (.addByte x nn) := regImmWord_masked _ _ _

theorem ldReg (x : RegIndex) (y : RegIndex) : Statement (.ldReg x y) := regRegWord_masked_n _ _ _ _

theorem orReg (x : RegIndex) (y : RegIndex) : Statement (.orReg x y) := regRegWord_masked_n _ _ _ _

theorem andReg (x : RegIndex) (y : RegIndex) : Statement (.andReg x y) := regRegWord_masked_n _ _ _ _

theorem xorReg (x : RegIndex) (y : RegIndex) : Statement (.xorReg x y) := regRegWord_masked_n _ _ _ _

theorem addReg (x : RegIndex) (y : RegIndex) : Statement (.addReg x y) := regRegWord_masked_n _ _ _ _

theorem subReg (x : RegIndex) (y : RegIndex) : Statement (.subReg x y) := regRegWord_masked_n _ _ _ _

theorem shr (x : RegIndex) (y : Nibble) : Statement (.shr x y) := regRegWord_masked_n _ _ _ _

theorem subnReg (x : RegIndex) (y : RegIndex) : Statement (.subnReg x y) := regRegWord_masked_n _ _ _ _

theorem shl (x : RegIndex) (y : Nibble) : Statement (.shl x y) := regRegWord_masked_n _ _ _ _

theorem sneReg (x : RegIndex) (y : RegIndex) : Statement (.sneReg x y) := regRegWord_masked_n _ _ _ _

theorem ldI (nnn : Addr12) : Statement (.ldI nnn) := addrWord_masked _ _

theorem jpV0 (nnn : Addr12) : Statement (.jpV0 nnn) := addrWord_masked _ _

theorem rnd (x : RegIndex) (nn : Byte) : Statement (.rnd x nn) := regImmWord_masked _ _ _

theorem drw (x : RegIndex) (y : RegIndex) (n : Nibble) : Statement (.drw x y n) := regRegWord_masked _ _ _ _

theorem skp (x : RegIndex) : Statement (.skp x) := regImmWord_masked_nn _ _ _

theorem sknp (x : RegIndex) : Statement (.sknp x) := regImmWord_masked_nn _ _ _

theorem ldVxDt (x : RegIndex) : Statement (.ldVxDt x) := regImmWord_masked_nn _ _ _

theorem ldVxK (x : RegIndex) : Statement (.ldVxK x) := regImmWord_masked_nn _ _ _

theorem ldDtVx (x : RegIndex) : Statement (.ldDtVx x) := regImmWord_masked_nn _ _ _

theorem ldStVx (x : RegIndex) : Statement (.ldStVx x) := regImmWord_masked_nn _ _ _

theorem addI (x : RegIndex) : Statement (.addI x) := regImmWord_masked_nn _ _ _

theorem ldF (x : RegIndex) : Statement (.ldF x) := regImmWord_masked_nn _ _ _

theorem ldB (x : RegIndex) : Statement (.ldB x) := regImmWord_masked_nn _ _ _

theorem storeRegs (x : RegIndex) : Statement (.storeRegs x) := regImmWord_masked_nn _ _ _

theorem loadRegs (x : RegIndex) : Statement (.loadRegs x) := regImmWord_masked_nn _ _ _

end Sys2Proof.Laws.EncodedRow
end

