-- ==== Sys2Proof/Tests/Slice0.lean ====
section
/-!
SUPPORT. The model's own tests. Expected values are the spec's: the pattern column of R86 for decoding, the vectors of
spec/95_test_vectors.md (each named by its id) for the steps. The last part shows, for every statement with hypotheses, a
concrete input that meets them.
-/

open Sys2Proof Sys2Proof.Machine Sys2Proof.Statement

namespace Sys2Proof.Test

/-! ### Helpers -/

/-- A state with the given registers. -/
def withV (regs : List (Fin 16 × Byte)) (s : State) : State := regs.foldl (fun t p => t.setReg p.1 p.2) s

/-- A state with the given bytes of memory from an address. -/
def withBytes (start : Nat) (bytes : List Byte) (s : State) : State := s.setMem (Memory.putAll s.mem start bytes)

/-- A state with the given cells of the framebuffer toggled. -/
def withLit (cells : List Nat) (s : State) : State := { s with fb := cells.foldl toggle s.fb }

/-- A state with the given keys pressed. -/
def withKeys (keys : List Int) (s : State) : State := keys.foldl (fun t k => setKey k true t) s

/-- The reset state with the given registers: the vectors' "before". -/
def regs (l : List (Fin 16 × Byte)) : State := withV l State.reset

/-- One STEP of the word `w` at PC answers next with a state that meets `p`. -/
def runs (w : Nat) (s : State) (p : State → Bool) : Bool :=
  match step (s.withFetchWord 16 w) with
  | .next t => p t
  | _ => false

/-- One STEP of the word `w` at PC ends in the fault `f`. -/
def stops (w : Nat) (s : State) (f : Fault) : Bool :=
  match step (s.withFetchWord 16 w) with
  | .fault g => g == f
  | _ => false

/-- One STEP(rnd) of the word `w` at PC answers next with a state that meets `p`. -/
def runsWith (rnd : Byte) (w : Nat) (s : State) (p : State → Bool) : Bool :=
  match stepWith rnd (s.withFetchWord 16 w) with
  | .next t => p t
  | _ => false

/-- Exactly the given cells are 1. -/
def lit (s : State) (cells : List Nat) : Bool := s.fb == cells.foldl toggle blankScreen

/-! ### Well-formedness: an ill-formed term for each check -/

theorem test_wf_refuses_x : (Instr.ldByte 16 0).wellFormed = false := by decide
theorem test_wf_refuses_x_of_two : (Instr.addReg 16 3).wellFormed = false := by decide
theorem test_wf_refuses_y : (Instr.addReg 3 16).wellFormed = false := by decide
theorem test_wf_refuses_draw_y : (Instr.drw 0 99 5).wellFormed = false := by decide
theorem test_wf_refuses_x_of_shift : (Instr.shr 16 0).wellFormed = false := by decide
theorem test_wf_accepts_fifteen : (Instr.subnReg 15 15).wellFormed = true := by decide

/-! ### Decoding: a word of every row of R86, written out bit by bit -/

theorem test_decode_cls : decodeWord 0b0000000011100000 = some .cls := by decide
theorem test_decode_ret : decodeWord 0b0000000011101110 = some .ret := by decide
theorem test_decode_jp : decodeWord 0b0001001000110100 = some (.jp 0x234) := by decide
theorem test_decode_call : decodeWord 0b0010001100000001 = some (.call 0x301) := by decide
theorem test_decode_seByte : decodeWord 0b0011000111000000 = some (.seByte 1 0xC0) := by decide
theorem test_decode_sneByte : decodeWord 0b0100001000000110 = some (.sneByte 2 6) := by decide
theorem test_decode_seReg : decodeWord 0b0101000100100000 = some (.seReg 1 2) := by decide
theorem test_decode_ldByte : decodeWord 0b0110101000101011 = some (.ldByte 10 0x2B) := by decide
theorem test_decode_addByte : decodeWord 0b0111010111111110 = some (.addByte 5 0xFE) := by decide
theorem test_decode_ldReg : decodeWord 0b1000001000010000 = some (.ldReg 2 1) := by decide
theorem test_decode_orReg : decodeWord 0b1000001100010001 = some (.orReg 3 1) := by decide
theorem test_decode_andReg : decodeWord 0b1000000101110010 = some (.andReg 1 7) := by decide
theorem test_decode_xorReg : decodeWord 0b1000111100010011 = some (.xorReg 15 1) := by decide
theorem test_decode_addReg : decodeWord 0b1000000100100100 = some (.addReg 1 2) := by decide
theorem test_decode_subReg : decodeWord 0b1000010001010101 = some (.subReg 4 5) := by decide
theorem test_decode_shr : decodeWord 0b1000111111110110 = some (.shr 15 15) := by decide
theorem test_decode_subnReg : decodeWord 0b1000000110010111 = some (.subnReg 1 9) := by decide
theorem test_decode_shl : decodeWord 0b1000001000111110 = some (.shl 2 3) := by decide
theorem test_decode_sneReg : decodeWord 0b1001000100100000 = some (.sneReg 1 2) := by decide
theorem test_decode_ldI : decodeWord 0b1010101111001101 = some (.ldI 0xBCD) := by decide
theorem test_decode_jpV0 : decodeWord 0b1011001100000010 = some (.jpV0 0x302) := by decide
theorem test_decode_rnd : decodeWord 0b1100001100001111 = some (.rnd 3 0x0F) := by decide
theorem test_decode_drw : decodeWord 0b1101001100010101 = some (.drw 3 1 5) := by decide
theorem test_decode_skp : decodeWord 0b1110011010011110 = some (.skp 6) := by decide
theorem test_decode_sknp : decodeWord 0b1110111110100001 = some (.sknp 15) := by decide
theorem test_decode_ldVxDt : decodeWord 0b1111001100000111 = some (.ldVxDt 3) := by decide
theorem test_decode_ldVxK : decodeWord 0b1111011100001010 = some (.ldVxK 7) := by decide
theorem test_decode_ldDtVx : decodeWord 0b1111100000010101 = some (.ldDtVx 8) := by decide
theorem test_decode_ldStVx : decodeWord 0b1111000100011000 = some (.ldStVx 1) := by decide
theorem test_decode_addI : decodeWord 0b1111001000011110 = some (.addI 2) := by decide
theorem test_decode_ldF : decodeWord 0b1111010000101001 = some (.ldF 4) := by decide
theorem test_decode_ldB : decodeWord 0b1111101000110011 = some (.ldB 10) := by decide
theorem test_decode_storeRegs : decodeWord 0b1111010101010101 = some (.storeRegs 5) := by decide
theorem test_decode_loadRegs : decodeWord 0b1111001001100101 = some (.loadRegs 2) := by decide

/-- DEC-1 to DEC-20: the invalid words next to the valid ones. -/
theorem test_decode_invalid_words :
    ([0x0000, 0x00E1, 0x00EF, 0x01E0, 0x0123, 0x5121, 0x512F, 0x9121, 0x8128, 0x812D] ++
      [0x812F, 0xE09F, 0xE0A0, 0xE000, 0xF000, 0xF00B, 0xF01F, 0xF075, 0xF0FF, 0xFFFF] : List Word).all
      (fun w => decodeWord w == none) = true := by decide

/-- DEC-22: primaries that accept every low 12 bits. -/
theorem test_decode_valid_primaries :
    ([0x1000, 0x2FFF, 0x3F00, 0x6FFF, 0xAFFF, 0xBFFF, 0xCFFF, 0xDFFF] : List Word).all
      (fun w => (decodeWord w).isSome) = true := by decide

/-- PC-6 and R57: the byte at the lower address is the high byte. -/
theorem test_decode_bytes : decode [0x61#8, 0x2A#8, 0x99#8] = .ok (.ldByte 1 0x2A, [0x99#8]) := by rfl
theorem test_decode_truncated : decode [0x61#8] = .error .truncated := by rfl
theorem test_decodeTableWord : decodeTableWord 16 0x8124 = some (.addReg 1 2) := by decide

/-! ### Immediate, register, arithmetic, shift, random (part 2.2) -/

theorem test_ALU_1 : runs 0x6A2B State.reset (fun t => t.reg 10 == 0x2B && t.pc == 0x202) = true := by decide
theorem test_ALU_3 : runs 0x75FF (regs [(5, 0xFF), (15, 7)]) (fun t => t.reg 5 == 0xFE && t.reg 15 == 7) = true := by
  decide
theorem test_ALU_4 : runs 0x7F03 (regs [(15, 0xFE)]) (fun t => t.reg 15 == 1) = true := by decide
theorem test_ALU_6 : runs 0x8210 (regs [(1, 0x55)]) (fun t => t.reg 2 == 0x55 && t.reg 1 == 0x55) = true := by
  decide
theorem test_ALU_8 : runs 0x8011 (regs [(0, 0xF0), (1, 0x0F), (15, 1)]) (fun t => t.reg 0 == 0xFF && t.reg 15 == 1) = true := by
  decide
theorem test_ALU_9 : runs 0x8012 (regs [(0, 0xF3), (1, 0x3F), (15, 1)]) (fun t => t.reg 0 == 0x33 && t.reg 15 == 1) = true := by
  decide
theorem test_ALU_10 : runs 0x8013 (regs [(0, 0xFF), (1, 0x0F), (15, 1)]) (fun t => t.reg 0 == 0xF0 && t.reg 15 == 1) = true := by
  decide
theorem test_ALU_12 : runs 0x8124 (regs [(1, 200), (2, 100)]) (fun t => t.reg 1 == 44 && t.reg 15 == 1) = true := by
  decide
theorem test_ALU_15 : runs 0x8F14 (regs [(15, 0xF0), (1, 0x20)]) (fun t => t.reg 15 == 1) = true := by decide
theorem test_ALU_19 : runs 0x8455 (regs [(5, 1)]) (fun t => t.reg 4 == 0xFF && t.reg 15 == 0) = true := by decide
theorem test_ALU_22 : runs 0x80F5 (regs [(0, 5), (15, 1)]) (fun t => t.reg 0 == 4 && t.reg 15 == 1) = true := by
  decide
theorem test_ALU_23 : runs 0x8126 (regs [(1, 1), (2, 0xFF)]) (fun t => t.reg 1 == 0 && t.reg 15 == 1 && t.reg 2 == 0xFF) = true := by
  decide
theorem test_ALU_25 : runs 0x8106 (regs [(1, 0x80)]) (fun t => t.reg 1 == 0x40 && t.reg 15 == 0) = true := by decide
theorem test_ALU_28 : runs 0x8127 (regs [(1, 10), (2, 30)]) (fun t => t.reg 1 == 20 && t.reg 15 == 1) = true := by
  decide
theorem test_ALU_29 : runs 0x8127 (regs [(1, 30), (2, 10)]) (fun t => t.reg 1 == 236 && t.reg 15 == 0) = true := by
  decide
theorem test_ALU_35 : runs 0x823E (regs [(2, 0x41), (3, 0xFF)]) (fun t => t.reg 2 == 0x82 && t.reg 15 == 0 && t.reg 3 == 0xFF) = true := by
  decide
theorem test_ALU_36 : runs 0x8F0E (regs [(15, 0x80)]) (fun t => t.reg 15 == 1) = true := by decide
theorem test_ALU_38 : runsWith 0xA7 0xC30F (regs [(3, 0x77)]) (fun t => t.reg 3 == 7) = true := by decide
/-- R132: with no byte from the host the draw is the environment's, and the instruction completes. -/
theorem test_rnd_without_host_byte : runs 0xC30F State.reset (fun t => t.draws == 1 && t.pc == 0x202) = true := by decide

/-! ### Display (part 2.3) -/

/-- CLS-1. -/
theorem test_CLS_1 : runs 0x00E0 (withLit [0, 2047] (regs [(15, 1)]))
    (fun t => lit t [] && t.upd && t.reg 15 == 1 && t.pc == 0x202) = true := by decide

/-- The state of the DRW vectors: a sprite at I. -/
def sprite (i : Word) (bytes : List Byte) (l : List (Fin 16 × Byte)) : State :=
  (withBytes i.toNat bytes (regs l)).setI i

/-- DRW-6 (a collision in the first row only) and DRW-12 (origin wrap, clipping, bit 7 leftmost). -/
theorem test_DRW_6_12 : runs 0xD012 (withLit [0] (sprite 0x300 [0x80, 0x80] []))
    (fun t => lit t [64] && t.reg 15 == 1 && t.upd) = true ∧
    runs 0xD011 (sprite 0x300 [0x81] [(0, 63), (1, 255)]) (fun t => lit t [2047] && t.reg 15 == 0) = true := by decide

/-- DRW-9 (old VF is the column) and DRW-11 (a row off screen is still checked). -/
theorem test_DRW_9_11 : runs 0xDF11 (sprite 0x300 [0xC0] [(15, 9), (1, 2)])
    (fun t => lit t [137, 138] && t.reg 15 == 0) = true ∧
    stops 0xD012 (sprite 0xFFF [0xFF] [(1, 31)]) (.indexOutOfBounds 0xFFF) = true := by decide

/-! ### Control transfer (part 2.4) -/

theorem test_CTL_1 : runs 0x1234 State.reset (fun t => t.pc == 0x234) = true := by decide
theorem test_CTL_5 : runs 0x2300 State.reset (fun t => t.pc == 0x300 && t.sp == 1 && t.stack[0] == 0x202) = true := by
  decide
theorem test_CTL_5_return : runs 0x00EE { State.reset with sp := 1, stack := State.reset.stack.set 0 0x202 }
    (fun t => t.pc == 0x202 && t.sp == 0 && t.stack[0] == 0x202) = true := by decide
theorem test_CTL_7 : stops 0x00EE State.reset .stackUnderflow = true := by decide
theorem test_CTL_8 : stops 0x2200 { State.reset with sp := 16 } .stackOverflow = true := by decide
theorem test_CTL_10 : runs 0xBFFF (regs [(0, 2)]) (fun t => t.pc == 0x1001) = true := by decide
theorem test_CTL_11 : runs 0xB300 (regs [(3, 0x10)]) (fun t => t.pc == 0x300) = true := by decide
theorem test_CTL_12 : runs 0x3100 State.reset (fun t => t.pc == 0x204) = true := by decide
theorem test_CTL_13 : runs 0x3100 (regs [(1, 1)]) (fun t => t.pc == 0x202) = true := by decide
theorem test_CTL_14 : runs 0x4206 (regs [(2, 5)]) (fun t => t.pc == 0x204) = true := by decide
theorem test_CTL_15 : runs 0x4206 (regs [(2, 6)]) (fun t => t.pc == 0x202) = true := by decide
theorem test_CTL_16 : runs 0x5120 (regs [(1, 7), (2, 7)]) (fun t => t.pc == 0x204) = true := by decide
theorem test_CTL_17 : runs 0x5120 (regs [(1, 7), (2, 8)]) (fun t => t.pc == 0x202) = true := by decide
theorem test_CTL_19 : runs 0x9120 (regs [(1, 7), (2, 8)]) (fun t => t.pc == 0x204) = true := by decide
theorem test_CTL_20 : runs 0x9120 (regs [(1, 7), (2, 7)]) (fun t => t.pc == 0x202) = true := by decide
theorem test_CTL_24 : runs 0xE09E (withKeys [10] (regs [(0, 10)])) (fun t => t.pc == 0x204) = true := by decide
theorem test_CTL_27 : stops 0xE09E (withKeys [10] (regs [(0, 0x1A)])) (.invalidKey 0x1A) = true := by decide
theorem test_CTL_28 : runs 0xE0A1 (regs [(0, 10)]) (fun t => t.pc == 0x204) = true := by decide
theorem test_CTL_29 : runs 0xE0A1 (withKeys [10] (regs [(0, 10)])) (fun t => t.pc == 0x202) = true := by decide

/-! ### Index register and memory (part 2.5) -/

theorem test_IDX_1 : runs 0xA2F0 { State.reset with i := 0xFFFF } (fun t => t.i == 0x2F0) = true := by decide
theorem test_IDX_3 : runs 0xF01E ((regs [(0, 1)]).setI 0xFFF) (fun t => t.i == 0x1000 && t.reg 15 == 0) = true := by
  decide
theorem test_IDX_4 : runs 0xF01E ((regs [(0, 1)]).setI 0xFFFF) (fun t => t.i == 0) = true := by decide
theorem test_IDX_8 : runs 0xF029 (regs [(0, 15)]) (fun t => t.i == 0x9B) = true := by decide
theorem test_IDX_11 : runs 0xF029 (regs [(0, 0xFF)]) (fun t => t.i == 0x54B) = true := by decide
theorem test_IDX_12 : runs 0xF033 ((regs [(0, 254)]).setI 0xFFD)
    (fun t => t.mem.read 0xFFD == some 2 && t.mem.read 0xFFE == some 5 && t.mem.read 0xFFF == some 4) = true := by
  decide
theorem test_IDX_15 : stops 0xF033 ((regs [(0, 1)]).setI 0xFFFF) (.indexOutOfBounds 0xFFFF) = true := by decide
theorem test_IDX_17 : runs 0xF155 ((regs [(0, 0x11), (1, 0x22), (2, 0x33)]).setI 0x300)
    (fun t => t.mem.read 0x300 == some 0x11 && t.mem.read 0x301 == some 0x22 && t.mem.read 0x302 == some 0 && t.i == 0x300)
    = true := by decide
theorem test_IDX_20 : stops 0xFF55 (State.reset.setI 0xFF1) (.indexOutOfBounds 0xFF1) = true := by decide
theorem test_IDX_23 : runs 0xF265 (sprite 0x300 [2, 5, 4, 9] [(3, 0x77)])
    (fun t => t.reg 0 == 2 && t.reg 1 == 5 && t.reg 2 == 4 && t.reg 3 == 0x77 && t.i == 0x300) = true := by decide
theorem test_IDX_24 : runs 0xF465 (State.reset.setI 0x50)
    (fun t => t.regBlock 4 == [0xF0, 0x90, 0x90, 0x90, 0xF0]) = true := by decide

/-! ### Timers, key wait, host operations (part 2.6) -/

theorem test_TMR_1 : runs 0xF307 { State.reset with dt := 0x3C } (fun t => t.reg 3 == 0x3C && t.dt == 0x3C) = true := by
  decide
theorem test_TMR_2 : runs 0xF015 (regs [(0, 3)]) (fun t => t.dt == 3 && t.st == 0) = true := by decide
theorem test_TMR_3 : runs 0xF118 (regs [(1, 30)]) (fun t => t.st == 30 && t.dt == 0 && beep t) = true := by decide
theorem test_TMR_6 : (tick (tick (tick { State.reset with dt := 255, st := 2 }))).dt = 252 ∧
    (tick (tick (tick { State.reset with dt := 255, st := 2 }))).st = 0 := by decide
theorem test_KEY_1 : runs 0xF50A State.reset (fun t => t == State.reset.withFetchWord 16 0xF50A) = true := by decide
theorem test_KEY_2 : runs 0xF50A (withKeys [7, 3] (regs [(5, 0xEE)]))
    (fun t => t.reg 5 == 3 && t.pc == 0x202 && t.key == (withKeys [3, 7] State.reset).key) = true := by decide
theorem test_KEY_6 : setKey 16 true State.reset = State.reset ∧ setKey 255 true State.reset = State.reset := by
  decide
theorem test_ROM_2 : loadRom (List.replicate 3585 0xBB) State.reset = (State.reset, .romTooLarge) := by decide +kernel
theorem test_ROM_3 : (loadRom [0x12, 0x00] State.reset).1.mem = [(0x200, 0x12)] := by decide
theorem test_RST_2 : (reset (withBytes 0x50 [0] { State.reset with sp := 16, dt := 9, upd := true })).1 = State.reset := by
  decide +kernel
/-- A request on the ports of R203 with an all-zero ROM stream. -/
def request (op : BitVec 3) (len : BitVec 13) : PortRequest :=
  { op := op, keyIdx := 0, rnd := 0, romLen := len, romData := fun _ => 0 }

/-- What the fault port shows after one request from the reset state. -/
def portFault (q : PortRequest) : BitVec 4 := (portView (serve q State.reset .ok).1 (serve q State.reset .ok).2).fault

theorem test_port_fault : portFault (request 1 0) = 3 := by decide
theorem test_port_rom_length : (request 7 8191).rom.length = 8191 ∧ (request 7 3).rom = [0, 0, 0] :=
  ⟨by rw [PortRequest.rom, List.length_map, List.length_range]; rfl, rfl⟩

/-- PRG-4 (R201): a host that ticks for ever, and one that only steps, which is a schedule too. -/
theorem test_schedule_ticks : Schedule.keepsTicking (fun n => if n % 2 = 0 then .step 0 else .tick) :=
  fun n => ⟨2 * n + 1, by omega, if_neg (by omega)⟩
theorem test_schedule_never_ticks : ¬Schedule.keepsTicking (fun _ => .step 0) := by
  intro h
  obtain ⟨m, -, hm⟩ := h 0
  cases hm

/-! ### Fetch and PC (part 2.7) -/

theorem test_PC_1 : runs 0x6007 { State.reset with pc := 0xFFE } (fun t => t.reg 0 == 7 && t.pc == 0x1000) = true := by
  decide
theorem test_PC_2 : hostStep 0 { State.reset with pc := 0xFFF } =
    ({ State.reset with pc := 0xFFF }, .fault (.pcOutOfBounds 0xFFF)) := by decide
/-- DEC-1, R246: with no program loaded the first step faults. -/
theorem test_DEC_1 : hostStep 0 State.reset = ({ State.reset with pc := 0x202 }, .fault (.invalidOpcode 0)) := by
  decide
/-- CTL-32: the odd fetch is an ordinary one. -/
theorem test_CTL_32 : hostStep 0 { withBytes 0x200 [0x12, 0x01, 0x60, 0x07] State.reset with pc := 0x201 } =
    ({ withBytes 0x200 [0x12, 0x01, 0x60, 0x07] State.reset with pc := 0x203 }, .fault (.invalidOpcode 0x0160)) := by
  decide

/-! ### Witnesses: for each statement with hypotheses, an input that meets them all; one for each clause, at the ends of
its range -/

/-- The reset state with PC elsewhere. -/
def atPc (w : Word) : State := { State.reset with pc := w }

/-- The reset state with the stack pointer elsewhere. -/
def atSp (n : Fin 17) : State := { State.reset with sp := n }

/-- The reset state with I elsewhere. -/
def atI (w : Word) : State := State.reset.setI w

theorem witness_DecodeOfEncodeIsTheInstruction :
    (Instr.drw 15 15 15).wellFormed = true ∧ (Instr.seByte 0 0).wellFormed = true := by decide

theorem witness_EncodeOfDecodeIsTheWord : decodeWord 0xDFFF = some (.drw 15 15 15) := by decide

theorem witness_PatternsSelectTheInstruction :
    decodeWord 0x8FF6 = some (.shr 15 15) ∧ 0x8FF6 &&& (Instr.shr 0 0).row.mask = (Instr.shr 0 0).row.pattern := by decide

theorem witness_FetchReadsTwoBytesOrFaults : (atPc 4094).pc.toNat ≤ 4094 ∧ 4094 < (atPc 4095).pc.toNat := by decide

theorem witness_StepRunsTheDecodedInstruction :
    (State.reset.withFetchWord 16 0x6A2B).mem.readWord (State.reset.withFetchWord 16 0x6A2B).pc.toNat = some 0x6A2B ∧
      decodeWord 0x6A2B = some (.ldByte 10 0x2B) := by decide

theorem witness_InvalidOpcodeChangesOnlyPc :
    (atPc 4094).mem.readWord (atPc 4094).pc.toNat = some 0 ∧ decodeWord 0 = none := by decide

/-- Both clauses, at the last fetchable PC and the first that is not. -/
theorem witness_FaultingStepLeavesOnlyPcAdvanced :
    perform (.step 7) (atPc 4094) = (atPc 4096, .fault (.invalidOpcode 0)) ∧
      perform (.step 7) (atPc 4095) = (atPc 4095, .fault (.pcOutOfBounds 4095)) := by decide

theorem witness_StepUsesTheHostsRandomByte :
    (State.reset.withFetchWord 16 0xC30F).mem.readWord (State.reset.withFetchWord 16 0xC30F).pc.toNat = some 0xC30F ∧
      decodeWord 0xC30F = some (.rnd (3 : Fin 16).val 0x0F) := by decide

/-- A destination other than VF, and VF itself, with a carry out. -/
theorem witness_AddSetsTheCarry : (14 : Fin 16) ≠ 15 ∧ ¬(15 : Fin 16) ≠ 15 ∧
    255 < ((regs [(14, 0xFF), (0, 1)]).reg 14).toNat + ((regs [(14, 0xFF), (0, 1)]).reg 0).toNat := by decide

theorem witness_SubtractionsSetTheNotBorrow : (14 : Fin 16) ≠ 15 ∧
    ((regs [(14, 5), (0, 5)]).reg 0).toNat ≤ ((regs [(14, 5), (0, 5)]).reg 14).toNat := by decide

theorem witness_ShiftsPutTheLostBitInVF : (0 : Fin 16) ≠ 15 ∧ ((regs [(0, 0x81)]).reg 0).toNat % 2 = 1 ∧
    128 ≤ ((regs [(0, 0x81)]).reg 0).toNat := by decide

/-- A host byte waiting, none waiting, and a mask bit that is clear. -/
theorem witness_RandomIsTheMaskedByte : ({ State.reset with rndIn := [5, 6] } : State).rndIn = 5 :: [6] ∧
    State.reset.rndIn = [] ∧ (0x0F#8).getLsbD 7 = false := by decide

theorem witness_OnlyRandomReadsTheRandomInput : ¬isRandom (.ldVxDt 3) ∧ ∃ t, exec (.ldVxDt 3) State.reset = .next t :=
  ⟨id, _, rfl⟩

/-- A draw of no rows with I at its largest, one that ends at the last byte, and a sprite pixel on a cell that is on. -/
theorem witness_DrawXorsTheSpriteOntoTheScreen :
    (((0 : Nibble).toNat = 0 ∨ (atI 0xFFFF).i.toNat + (0 : Nibble).toNat ≤ 4096)) ∧
      ((15 : Nibble).toNat = 0 ∨ (atI 4081).i.toNat + (15 : Nibble).toNat ≤ 4096) ∧
      spriteLit (sprite 0x300 [0x81] [(0, 63), (1, 255)]) 0 1 1 2047 ∧ cell (withLit [2047] State.reset).fb 2047 = true :=
  ⟨by decide, by decide, ⟨0, 0, 0x81, by decide, by decide, by decide, by decide, by decide, by decide, by decide⟩, by decide⟩

theorem witness_DrawingTwiceRestoresTheScreen :
    ∃ t, exec (.drw 0 1 1) (sprite 0x300 [0xFF] [(0, 10), (1, 5)]) = .next t ∧
      t.reg 0 = (sprite 0x300 [0xFF] [(0, 10), (1, 5)]).reg 0 ∧ t.reg 1 = (sprite 0x300 [0xFF] [(0, 10), (1, 5)]).reg 1 ∧
      t.i = (sprite 0x300 [0xFF] [(0, 10), (1, 5)]).i ∧ t.mem = (sprite 0x300 [0xFF] [(0, 10), (1, 5)]).mem :=
  ⟨_, rfl, by decide, by decide, rfl, rfl⟩

theorem witness_KeySkipsPollTheKey : (15 : Fin 16).val = ((regs [(0, 15)]).reg 0).toNat ∧
    15 < ((regs [(0, 16)]).reg 0).toNat := by decide

theorem witness_CallPushesTheReturnAddress : (atSp 15).sp.val < 16 ∧ (atSp 16).sp.val = 16 := by decide

theorem witness_ReturnPopsIntoPc : (atSp 1).sp.val ≠ 0 ∧ (atSp 0).sp.val = 0 ∧ (0 : Fin 16).val = (atSp 1).sp.val - 1 := by
  decide

theorem witness_ReturnUndoesCall : ∃ t, exec (.call 0x300) (atSp 15) = .next t ∧ t.sp = t.sp ∧ t.stack = t.stack :=
  ⟨_, rfl, rfl, rfl⟩

theorem witness_BcdStoresThreeDigits : (atI 4093).mem.wf ∧ (atI 4093).i.toNat + 2 ≤ 4095 := by decide

theorem witness_BlockStoreCopiesRegisters : (atI 4080).mem.wf ∧ (atI 4080).i.toNat + (15 : Fin 16).val ≤ 4095 := by decide

theorem witness_BlockLoadCopiesMemory : (atI 4080).i.toNat + (15 : Fin 16).val ≤ 4095 := by decide

/-- Each clause at the first I that is too high. -/
theorem witness_AccessPastTheEndOfMemoryFaults :
    ((2 : Nibble).toNat ≠ 0 ∧ 4095 < (atI 4095).i.toNat + ((2 : Nibble).toNat - 1)) ∧ 4093 < (atI 4094).i.toNat ∧
      4095 < (atI 4081).i.toNat + (15 : Fin 16).val := by decide

theorem witness_BlockLoadUndoesBlockStore :
    (atI 4080).mem.wf ∧ ∃ t, exec (.storeRegs (15 : Fin 16).val) (atI 4080) = .next t ∧ t.mem = t.mem ∧ t.i = t.i :=
  ⟨by decide, _, rfl, rfl, rfl⟩

theorem witness_StoredWordIsTheNextFetched :
    (atI 0x200).mem.wf ∧ 1 ≤ (1 : Fin 16).val ∧ ∃ t, exec (.storeRegs (1 : Fin 16).val) (atI 0x200) = .next t :=
  ⟨by decide, by decide, _, rfl⟩

/-- Keys 3 and 7 pressed, 3 the lowest; and no key pressed. -/
theorem witness_KeyWaitTakesTheLowestKey :
    ((withKeys [3, 7] State.reset).key[(3 : Fin 16).val] = true ∧
      ∀ j : Fin 16, j < 3 → (withKeys [3, 7] State.reset).key[j.val] = false) ∧
      ∀ k : Fin 16, State.reset.key[k.val] = false := by decide

/-- A written memory in canonical form; the last address, and the first that does not exist; a range that ends at the top
and one that goes past it. -/
theorem witness_MemoryPrimitives : Memory.wf [(0x200, 0x12#8), (0x201, 0x34#8)] ∧ 4095 ≤ 4095 ∧ 4095 < 4096 ∧
    4094 + [1#8, 2#8].length ≤ 4096 ∧ 4096 < 4095 + [1#8, 2#8].length := by decide

theorem witness_EqualReadsAreEqualMemories : Memory.wf [(0x200, 0x12#8)] ∧
    Memory.wf (Memory.put (Memory.put [] 0x200 0x99#8) 0x200 0x12#8) ∧
    ∀ a, Memory.read [(0x200, 0x12#8)] a = Memory.read (Memory.put (Memory.put [] 0x200 0x99#8) 0x200 0x12#8) a :=
  ⟨by decide, by decide, fun _ => rfl⟩

theorem witness_TickCountsDownAndStepNeverTicks : ∃ t, exec (.ldDtVx 0) (regs [(0, 9)]) = .next t := ⟨_, rfl⟩

theorem witness_KeyEventsSetOneKey : ((0 : Int) ≤ 15 ∧ (15 : Int) ≤ 15) ∧ ((-1 : Int) < 0 ∧ (15 : Int) < 16) := by decide

theorem witness_LoadRomWritesWholeOrNothing : State.reset.mem.wf ∧ (List.replicate 3584 0xAA#8).length ≤ 3584 ∧
    3584 < (List.replicate 3585 0xBB#8).length := 
  ⟨State.reset_mem_wf, by rw [List.length_replicate], by rw [List.length_replicate]; omega⟩

theorem witness_PortsReportTheFault : stepWith 0 State.reset = .fault (.invalidOpcode 0) := rfl

theorem witness_EveryStepKeepsTheInvariant : (State.reset.withFetchWord 16 0x2300).Inv ∧
    ∃ t, step (State.reset.withFetchWord 16 0x2300) = .next t := ⟨by decide, _, rfl⟩

theorem witness_EveryRunKeepsTheInvariant : State.reset.Inv ∧
    ∃ t, runOps [.loadRom [0x12, 0x00], .step 0, .tick, .step 0] State.reset = .next t := ⟨by decide, _, rfl⟩

theorem witness_OnlyTheNamedRegistersChange : (∃ t, exec (.addReg 1 2) (regs [(1, 5)]) = .next t) ∧
    ¬mayWriteReg (.addReg 1 2) (2 : Fin 16).val := ⟨⟨_, rfl⟩, by simp [mayWriteReg]⟩

theorem witness_OnlyDisplayInstructionsTouchTheScreen : (isDisplay .cls ∧ ∃ t, exec .cls State.reset = .next t) ∧
    ¬isDisplay (.jp 0x200) ∧ ∃ t, exec (.jp 0x200) State.reset = .next t := ⟨⟨trivial, _, rfl⟩, id, _, rfl⟩

theorem witness_OnlyStoresChangeMemoryAndOnlyCallsTheStack :
    (¬isStore (.call 0x300) ∧ ∃ t, exec (.call 0x300) State.reset = .next t) ∧
      ¬isStackOp (.storeRegs 1) ∧ ∃ t, exec (.storeRegs 1) State.reset = .next t := ⟨⟨id, _, rfl⟩, id, _, rfl⟩

theorem witness_IndexPcAndKeysChangeOnlyAsListed :
    (¬isIndexOp (.jp 0x300) ∧ ∃ t, exec (.jp 0x300) State.reset = .next t) ∧
      ¬mayWritePc (.ldI 0x300) ∧ ∃ t, exec (.ldI 0x300) State.reset = .next t := ⟨⟨id, _, rfl⟩, id, _, rfl⟩

theorem witness_SoundTimerAndUpdatedFlagAreNeverRead : ∃ t, exec (.drw 0 1 5) State.reset = .next t := ⟨_, rfl⟩

/-- Two states that differ in a stale slot: a step that goes on, and one that faults. -/
theorem witness_StaleStackSlotsAreNeverRead :
    (∃ t, AgreeBelowSp (State.reset.withFetchWord 16 0x2300)
        { State.reset.withFetchWord 16 0x2300 with stack := State.reset.stack.set 3 0xBEEF } ∧
      step (State.reset.withFetchWord 16 0x2300) = .next t) ∧
      AgreeBelowSp State.reset { State.reset with stack := State.reset.stack.set 3 0xBEEF } ∧
      step State.reset = .fault (.invalidOpcode 0) :=
  ⟨⟨_, ⟨by decide, rfl⟩, rfl⟩, ⟨by decide, rfl⟩, rfl⟩

/-- One instruction for each clause, at the first value that faults. -/
theorem witness_FaultsAreRaisedOnlyAsListed :
    ((Instr.skp 0).wellFormed = true ∧ exec (.skp 0) (regs [(0, 16)]) = .fault (.invalidKey 16)) ∧
    ((Instr.drw 0 1 2).wellFormed = true ∧ exec (.drw 0 1 2) (atI 4095) = .fault (.indexOutOfBounds 4095)) ∧
    ((Instr.ldB 0).wellFormed = true ∧ exec (.ldB 0) (atI 4094) = .fault (.indexOutOfBounds 4094)) ∧
    ((Instr.storeRegs 15).wellFormed = true ∧ exec (.storeRegs 15) (atI 4081) = .fault (.indexOutOfBounds 4081)) ∧
    ((Instr.call 0x300).wellFormed = true ∧ exec (.call 0x300) (atSp 16) = .fault .stackOverflow) ∧
    (Instr.ret.wellFormed = true ∧ exec .ret State.reset = .fault .stackUnderflow) :=
  ⟨⟨rfl, rfl⟩, ⟨rfl, rfl⟩, ⟨rfl, rfl⟩, ⟨rfl, rfl⟩, ⟨rfl, rfl⟩, ⟨rfl, rfl⟩⟩

/-- X bad, Y bad, and both. -/
theorem witness_BadRegisterIndexFaults : badRegister (.ldVxK 16) = some 16 ∧ badRegister (.addReg 3 16) = some 16 ∧
    badRegister (.drw 17 16 0) = some 17 := by decide

theorem witness_SelfJumpAndKeyWaitAreFixedPoints :
    State.selfJump (State.reset.withFetchWord 16 0x1200) ∧
      (State.reset.withFetchWord 16 0xF30A).mem.readWord (State.reset.withFetchWord 16 0xF30A).pc.toNat = some 0xF30A ∧
      decodeWord 0xF30A = some (.ldVxK (3 : Fin 16).val) ∧
      ∀ k : Fin 16, (State.reset.withFetchWord 16 0xF30A).key[k.val] = false :=
  ⟨by unfold State.selfJump; decide, by decide, by decide, by decide⟩

end Sys2Proof.Test
end

/-! ## The kinds of change an instruction can make

Every instruction that completes makes one of fifteen updates. `exec_effect` says so once, with the class of the
instruction (spec/10_state.md) and the bounds each update comes with; what instructions keep is then proved by cases on
the update. -/
section
namespace Sys2Proof.Machine

open Sys2Proof.Statement

/-- The updates a completing instruction can make of the state it runs in, each with the class the instruction is in. -/
inductive Effect (i : Instr) (s : State) : State → Prop
  | setReg (r : Fin 16) (b : Byte) (hr : mayWriteReg i r.val) : Effect i s (s.setReg r b)
  | setRegFlag (r : Fin 16) (b : Byte) (c : Bool) (hr : mayWriteReg i r.val) (hf : mayWriteReg i 15) :
      Effect i s (s.setRegFlag r b c)
  | setRegs (bytes : List Byte) (hr : ∀ k, k < bytes.length → mayWriteReg i k) : Effect i s (s.setRegs bytes)
  | random (r : Fin 16) (b : Byte) (hr : mayWriteReg i r.val) (hi : isRandom i) : Effect i s (s.drawn.setReg r b)
  | display (fb : Framebuffer) (hd : isDisplay i) : Effect i s (s.show fb)
  | draw (cells : List Nat) (hf : mayWriteReg i 15) (hd : isDisplay i) : Effect i s (s.draw cells)
  | setI (w : Word) (hx : isIndexOp i) : Effect i s (s.setI w)
  | setDt (b : Byte) (hi : ∃ x, i = .ldDtVx x) : Effect i s (s.setDt b)
  | setSt (b : Byte) (hi : ∃ x, i = .ldStVx x) : Effect i s (s.setSt b)
  | store (bytes : List Byte) (hi : isStore i) (hb : s.i.toNat + bytes.length ≤ 4096) :
      Effect i s (s.setMem (s.mem.putAll s.i.toNat bytes))
  | skip (c : Bool) (hp : mayWritePc i) : Effect i s (s.skipIf c)
  | rewind (hp : mayWritePc i) : Effect i s s.rewind
  | jump (w : Word) (hp : mayWritePc i) (hw : w.toNat ≤ 0x10FE) : Effect i s (s.setPc w)
  | call (w : Word) (hp : mayWritePc i) (hs : isStackOp i) (hw : w.toNat ≤ 0x10FE) (h : s.sp.val < 16) :
      Effect i s { s with stack := s.stack.set s.sp.val s.pc, sp := ⟨s.sp.val + 1, by omega⟩, pc := w }
  | ret (hp : mayWritePc i) (hs : isStackOp i) (h : s.sp.val ≠ 0) (h' : s.sp.val - 1 < 16) :
      Effect i s { s with sp := ⟨s.sp.val - 1, by omega⟩, pc := s.stack[s.sp.val - 1] }

/-- The largest jump target is that of BNNN, 0xFFF + 0xFF (R153). -/
theorem addrOperand_add_wide_le (nnn : Addr12) (b : Byte) : (addrOperand nnn + wide b).toNat ≤ 0x10FE := by
  have hn := nnn.isLt
  have hb := b.isLt
  simp only [addrOperand, wide, BitVec.toNat_add, BitVec.toNat_setWidth]
  omega

theorem addrOperand_le (nnn : Addr12) : (addrOperand nnn).toNat ≤ 0x10FE := by
  have hn := nnn.isLt
  simp only [addrOperand, BitVec.toNat_setWidth]
  omega

/-- What an instruction that answers next has done (R105). -/
theorem exec_effect {i : Instr} {s t : State} (h : exec i s = .next t) : Effect i s t := by
  cases i with
  | ldByte | addByte | ldVxDt =>
    simp only [exec_ldByte_next, exec_addByte_next, exec_ldVxDt_next] at h
    obtain ⟨r, rfl, rfl⟩ := h
    exact .setReg r _ rfl
  | ldReg | orReg | andReg | xorReg =>
    simp only [exec_ldReg_next, exec_orReg_next, exec_andReg_next, exec_xorReg_next] at h
    obtain ⟨r, q, rfl, rfl, rfl⟩ := h
    exact .setReg r _ rfl
  | addReg | subReg | subnReg =>
    simp only [exec_addReg_next, exec_subReg_next, exec_subnReg_next] at h
    obtain ⟨r, q, rfl, rfl, rfl⟩ := h
    exact .setRegFlag r _ _ (.inl rfl) (.inr rfl)
  | shr | shl =>
    simp only [exec_shr_next, exec_shl_next] at h
    obtain ⟨r, rfl, rfl⟩ := h
    exact .setRegFlag r _ _ (.inl rfl) (.inr rfl)
  | rnd =>
    obtain ⟨r, rfl, rfl⟩ := exec_rnd_next.mp h
    exact .random r _ rfl trivial
  | loadRegs =>
    obtain ⟨r, rfl, -, rfl⟩ := exec_loadRegs_next.mp h
    refine .setRegs _ fun k hk => ?_
    rw [List.length_map, List.length_range] at hk
    exact Nat.lt_succ_iff.mp hk
  | cls =>
    cases exec_cls_next.mp h
    exact .display _ trivial
  | drw =>
    obtain ⟨r, q, rfl, rfl, -, rfl⟩ := exec_drw_next.mp h
    exact .draw _ rfl trivial
  | ldI =>
    cases exec_ldI_next.mp h
    exact .setI _ trivial
  | addI | ldF =>
    simp only [exec_addI_next, exec_ldF_next] at h
    obtain ⟨r, rfl, rfl⟩ := h
    exact .setI _ trivial
  | ldDtVx =>
    obtain ⟨r, rfl, rfl⟩ := exec_ldDtVx_next.mp h
    exact .setDt _ ⟨_, rfl⟩
  | ldStVx =>
    obtain ⟨r, rfl, rfl⟩ := exec_ldStVx_next.mp h
    exact .setSt _ ⟨_, rfl⟩
  | ldB =>
    obtain ⟨r, rfl, hb, rfl⟩ := exec_ldB_next.mp h
    exact .store _ trivial hb
  | storeRegs =>
    obtain ⟨r, rfl, hb, rfl⟩ := exec_storeRegs_next.mp h
    exact .store _ trivial (by rw [State.length_regBlock]; omega)
  | seByte | sneByte =>
    simp only [exec_seByte_next, exec_sneByte_next] at h
    obtain ⟨r, rfl, rfl⟩ := h
    exact .skip _ trivial
  | seReg | sneReg =>
    simp only [exec_seReg_next, exec_sneReg_next] at h
    obtain ⟨r, q, rfl, rfl, rfl⟩ := h
    exact .skip _ trivial
  | skp | sknp =>
    simp only [exec_skp_next, exec_sknp_next] at h
    obtain ⟨r, rfl, -, rfl⟩ := h
    exact .skip _ trivial
  | ldVxK =>
    obtain ⟨r, rfl, ⟨k, -, rfl⟩ | ⟨-, rfl⟩⟩ := exec_ldVxK_next.mp h
    · exact .setReg r _ rfl
    · exact .rewind trivial
  | jp =>
    cases exec_jp_next.mp h
    exact .jump _ trivial (addrOperand_le _)
  | jpV0 =>
    cases exec_jpV0_next.mp h
    exact .jump _ trivial (addrOperand_add_wide_le _ _)
  | call =>
    obtain ⟨hs, rfl⟩ := exec_call_next.mp h
    exact .call (i := .call _) _ trivial trivial (addrOperand_le _) hs
  | ret =>
    obtain ⟨h0, h16, rfl⟩ := exec_ret_next.mp h
    exact .ret (i := .ret) trivial trivial h0 h16

/-- Settles O51: by cases on the update, each register write naming the register it may write. -/
theorem onlyTheNamedRegistersChange : Obligations.OnlyTheNamedRegistersChange := by
  intro i s t k h hk
  have other {r : Fin 16} (hr : mayWriteReg i r.val) : r ≠ k := fun e => hk (e ▸ hr)
  cases exec_effect h with
  | setReg r b hr => rw [State.reg_setReg, if_neg (other hr)]
  | setRegFlag r b c hr hf => rw [State.reg_setRegFlag, if_neg (other hf), if_neg (other hr)]
  | setRegs bytes hr => rw [State.reg_setRegs, if_neg fun hlt => hk (hr _ hlt)]
  | random r b hr => rw [State.reg_setReg, if_neg (other hr), State.drawn_reg]
  | draw cells hf => rw [State.reg_draw, if_neg (other hf)]
  | skip c => exact State.skipIf_reg s c k
  | display | setI | setDt | setSt | store | rewind | jump | call | ret => rfl

/-- Settles O54: I, PC and KEY are each written by few kinds of update, and KEY by none. -/
theorem indexPcAndKeysChangeOnlyAsListed : Obligations.IndexPcAndKeysChangeOnlyAsListed := by
  intro i s t h
  cases exec_effect h with
  | setI w hx => exact ⟨fun hn => absurd hx hn, fun _ => rfl, rfl⟩
  | skip c hp => exact ⟨fun _ => State.skipIf_i s c, fun hn => absurd hp hn, State.skipIf_key s c⟩
  | rewind hp | jump _ hp | call _ hp | ret hp => exact ⟨fun _ => rfl, fun hn => absurd hp hn, rfl⟩
  | setReg | setRegFlag | setRegs | random | display | draw | setDt | setSt | store =>
    exact ⟨fun _ => rfl, fun _ => rfl, rfl⟩

end Sys2Proof.Machine
end

/-! ## The invariant

Every update keeps `State.Inv` when PC is the address after a fetched instruction; a fault of the fetch leaves the state
as it was, and any other fault only advances PC. Runs follow by induction over the operations. -/
section
namespace Sys2Proof.Machine

section
variable {s t : State}

/-- A word fetched at PC lies inside memory (R101). -/
theorem pc_le_of_readWord {w : Word} (h : s.mem.readWord s.pc.toNat = some w) : s.pc.toNat ≤ 4094 := by
  have hlt : s.pc.toNat + 1 < 4096 := (Memory.readWord_eq_some.mp h).1
  omega

theorem lt_pc_of_readWord_eq_none (h : s.mem.readWord s.pc.toNat = none) : 4094 < s.pc.toNat := by
  by_contra hle
  have hlt : s.pc.toNat + 1 < Config.memSize := by
    show s.pc.toNat + 1 < 4096
    omega
  cases h.symm.trans (Memory.readWord_eq_some.mpr ⟨hlt, rfl⟩)

/-- The fetch advance of an instruction inside memory does not wrap (R27, R102). -/
theorem toNat_advance_pc (h : s.pc.toNat ≤ 4094) : s.advance.pc.toNat = s.pc.toNat + 2 := by
  rw [State.advance_pc]
  bv_omega

/-- The invariant speaks of PC only by its bound. -/
theorem State.Inv.setPc (h : s.Inv) {w : Word} (hw : w.toNat ≤ 0x10FE) : (s.setPc w).Inv := ⟨h.1, hw, h.2.2⟩

theorem State.Inv.advance (h : s.Inv) (hpc : s.pc.toNat ≤ 4094) : s.advance.Inv :=
  h.setPc (by rw [← State.advance_pc, toNat_advance_pc hpc]; omega)

/-- A skip adds 2 to a PC of at most 4096, a rewind takes 2 from one of at least 2: neither wraps (R27). -/
theorem State.Inv.skipIf (h : s.Inv) (hpc : s.pc.toNat ≤ 4096) (c : Bool) : (s.skipIf c).Inv := by
  cases c with
  | false => exact h
  | true =>
    refine h.setPc ?_
    bv_omega

theorem State.Inv.rewind (h : s.Inv) (hpc : 2 ≤ s.pc.toNat) : s.rewind.Inv := by
  obtain ⟨hmem, hmax, hstack⟩ := h
  refine ⟨hmem, ?_, hstack⟩
  rw [State.rewind_pc]
  bv_omega

/-- A call makes the address after it a live return address, so that address must lie in 2..4096 (R151). -/
theorem State.Inv.call (h : s.Inv) (hpc : 2 ≤ s.pc.toNat ∧ s.pc.toNat ≤ 4096) {w : Word} (hw : w.toNat ≤ 0x10FE)
    (hsp : s.sp.val < 16) :
    State.Inv { s with stack := s.stack.set s.sp.val s.pc, sp := ⟨s.sp.val + 1, by omega⟩, pc := w } := by
  obtain ⟨hmem, -, hstack⟩ := h
  refine ⟨hmem, hw, fun k hk => ?_⟩
  rw [Vector.getElem_set]
  split
  · exact hpc
  · exact hstack k (by dsimp only at hk; omega)

/-- A return goes to a live return address, at most 4096 (R152). -/
theorem State.Inv.ret (h : s.Inv) (h0 : s.sp.val ≠ 0) (h16 : s.sp.val - 1 < 16) :
    State.Inv { s with sp := ⟨s.sp.val - 1, by omega⟩, pc := s.stack[s.sp.val - 1] } := by
  obtain ⟨hmem, -, hstack⟩ := h
  refine ⟨hmem, ?_, fun k hk => hstack k (by dsimp only at hk; omega)⟩
  have htop := hstack ⟨s.sp.val - 1, h16⟩ (by dsimp only; omega)
  exact htop.2.trans (by decide)

/-- Every kind of update keeps the invariant, run with PC past an instruction that was fetched. -/
theorem Effect.keeps_inv {i : Instr} (h : s.Inv) (hpc : 2 ≤ s.pc.toNat ∧ s.pc.toNat ≤ 4096) (e : Effect i s t) :
    t.Inv := by
  cases e with
  | setReg | setRegFlag | setRegs | random | display | draw | setI | setDt | setSt => exact h
  | store bytes _ hb =>
    obtain ⟨hmem, hrest⟩ := h
    exact ⟨Memory.putAll_wf _ bytes hmem hb, hrest⟩
  | skip c => exact h.skipIf hpc.2 c
  | rewind => exact h.rewind hpc.1
  | jump w _ hw => exact h.setPc hw
  | call w _ _ hw hsp => exact h.call hpc hw hsp
  | ret _ _ h0 h16 => exact h.ret h0 h16

theorem step_keeps_inv (h : s.Inv) (hs : step s = .next t) : t.Inv := by
  obtain ⟨w, i, hw, -, hi⟩ := step_next hs
  have hpc := pc_le_of_readWord hw
  have hadv := toNat_advance_pc hpc
  exact (exec_effect hi).keeps_inv (h.advance hpc) (by omega)

/-! ### A faulting step -/

/-- Why a step faults: the fetch, the dispatch, or the instruction, in that order (R108). -/
theorem step_fault {f : Fault} (h : step s = .fault f) :
    (4094 < s.pc.toNat ∧ f = .pcOutOfBounds s.pc) ∨ ∃ w, s.mem.readWord s.pc.toNat = some w ∧
      ((decodeWord w = none ∧ f = .invalidOpcode w) ∨ ∃ i, decodeWord w = some i ∧ exec i s.advance = .fault f) := by
  unfold step fetchInstr fetch at h
  cases hw : s.mem.readWord s.pc.toNat with
  | none =>
    rw [hw] at h
    cases h
    exact .inl ⟨lt_pc_of_readWord_eq_none hw, rfl⟩
  | some w =>
    refine .inr ⟨w, rfl, ?_⟩
    rw [hw] at h
    cases hd : decodeWord w with
    | none =>
      simp only [hd] at h
      cases h
      exact .inl ⟨rfl, rfl⟩
    | some i =>
      simp only [hd] at h
      exact .inr ⟨i, rfl, h⟩

/-- After a fault the state is as it was or has PC advanced (D7, D8). -/
theorem takeFault_cases (f : Fault) (s : State) :
    (∃ w, f = .pcOutOfBounds w ∧ takeFault f s = s) ∨ takeFault f s = s.advance := by
  cases f with
  | pcOutOfBounds w => exact .inl ⟨w, rfl, rfl⟩
  | _ => exact .inr rfl

/-- A fault other than that of the fetch comes from a PC inside memory. -/
theorem pc_of_step_fault {f : Fault} (h : step s = .fault f) : f = .pcOutOfBounds s.pc ∨ s.pc.toNat ≤ 4094 := by
  rcases step_fault h with ⟨-, hf⟩ | ⟨w, hw, -⟩
  · exact .inl hf
  · exact .inr (pc_le_of_readWord hw)

theorem takeFault_keeps_inv {f : Fault} (h : s.Inv) (hf : f = .pcOutOfBounds s.pc ∨ s.pc.toNat ≤ 4094) :
    (takeFault f s).Inv := by
  rcases hf with rfl | hpc
  · exact h
  · rcases takeFault_cases f s with ⟨-, -, e⟩ | e
    · rwa [e]
    · rw [e]
      exact h.advance hpc

/-! ### The host's operations -/

theorem reset_inv : State.reset.Inv := ⟨State.reset_mem_wf, by decide, by decide⟩

/-- The invariant does not speak of the random input, so a STEP is a plain step to it (R191). -/
theorem hostStep_keeps_inv (rnd : Byte) (h : s.Inv) : (hostStep rnd s).1.Inv := by
  have hsup : State.Inv { s with rndIn := [rnd] } := h
  rcases hostStep_cases (t := (hostStep rnd s).1) rfl with ⟨u, hs, e, -⟩ | ⟨f, hs, e, -⟩ | ⟨z, -, e, -⟩
  · have hu : u.Inv := step_keeps_inv hsup hs
    rw [e]
    exact hu
  · rw [e]
    exact takeFault_keeps_inv h (pc_of_step_fault (s := { s with rndIn := [rnd] }) hs)
  · rwa [e]

theorem setKey_keeps_inv (k : Int) (b : Bool) (h : s.Inv) : (setKey k b s).Inv := by
  unfold setKey
  split <;> exact h

theorem loadRom_keeps_inv (bytes : List Byte) (h : s.Inv) : (loadRom bytes s).1.Inv := by
  unfold loadRom
  split
  · rename_i m hm
    exact ⟨Memory.writeRange_wf h.1 hm, h.2⟩
  · exact h

theorem perform_keeps_inv (op : HostOp) (h : s.Inv) : (perform op s).1.Inv := by
  cases op with
  | step rnd => exact hostStep_keeps_inv rnd h
  | keyPress k => exact setKey_keeps_inv k true h
  | keyRelease k => exact setKey_keeps_inv k false h
  | loadRom bytes => exact loadRom_keeps_inv bytes h
  | reset =>
    rw [perform, reset_eq]
    exact reset_inv
  | tick | clearUpdated | readFb | readUpdated | readBeep | readDt | readSt => exact h

/-- What every operation keeps, every run keeps. -/
theorem runOps_keeps {P : State → Prop} (hop : ∀ op u, P u → P (perform op u).1) {ops : List HostOp} (h : P s)
    (hr : runOps ops s = .next t) : P t := by
  induction ops generalizing s with
  | nil =>
    cases hr
    exact h
  | cons op ops ih =>
    have h1 := hop op s h
    rw [runOps_cons] at hr
    split at hr
    · cases hr
    · cases hr
    · rename_i heq
      rw [heq] at h1
      exact ih h1 hr

end

/-- Settles O49: fetch, advance, and one of the updates that keep the invariant. -/
theorem everyStepKeepsTheInvariant : Obligations.EveryStepKeepsTheInvariant :=
  fun _ _ h hs => step_keeps_inv h hs

/-- Settles O50: each operation keeps the invariant, and a run is one operation after another. -/
theorem everyRunKeepsTheInvariant : Obligations.EveryRunKeepsTheInvariant :=
  ⟨fun op _ h => perform_keeps_inv op h, fun _ _ _ h hr => runOps_keeps (fun op _ => perform_keeps_inv op) h hr⟩

end Sys2Proof.Machine
end

/-! ## What no instruction reads

A relation that the machine's own operations respect is respected by every instruction and every step: related states
give the same fault, or next states that are related again. The two statements about pieces of state that are never read
are this theorem at two relations. -/
section
namespace Sys2Proof.Machine

open Sys2Proof.Statement

/-- Two outcomes of the same kind: related next states, equal faults, equal refusals. -/
inductive Alike (R : State → State → Prop) :
    Host.Outcome State Fault Refusal → Host.Outcome State Fault Refusal → Prop
  | next {t t' : State} (h : R t t') : Alike R (.next t) (.next t')
  | fault (f : Fault) : Alike R (.fault f) (.fault f)
  | refused (z : Refusal) : Alike R (.refused z) (.refused z)

/-- `s'` differs from `s` at most in the stack, ST, UPD and the random source. -/
def SameOperands (s s' : State) : Prop :=
  s' = { s with stack := s'.stack, st := s'.st, upd := s'.upd, rndIn := s'.rndIn, draws := s'.draws }

/-- A relation between states that agree on the operands of instructions, and that every update respects. -/
structure Respected (R : State → State → Prop) : Prop where
  operands : ∀ {s s'}, R s s' → SameOperands s s'
  setReg : ∀ {s s'} r b, R s s' → R (s.setReg r b) (s'.setReg r b)
  setRegs : ∀ {s s'} bytes, R s s' → R (s.setRegs bytes) (s'.setRegs bytes)
  setI : ∀ {s s'} w, R s s' → R (s.setI w) (s'.setI w)
  setPc : ∀ {s s'} w, R s s' → R (s.setPc w) (s'.setPc w)
  setDt : ∀ {s s'} b, R s s' → R (s.setDt b) (s'.setDt b)
  setSt : ∀ {s s'} b, R s s' → R (s.setSt b) (s'.setSt b)
  setMem : ∀ {s s'} m, R s s' → R (s.setMem m) (s'.setMem m)
  display : ∀ {s s'} fb, R s s' → R (s.show fb) (s'.show fb)
  drawn : ∀ {s s'}, R s s' → R s.drawn s'.drawn
  push : ∀ {s s'} w, R s s' → Option.Rel R (s.push w) (s'.push w)
  pop : ∀ {s s'}, R s s' → Option.Rel (fun p p' => p.1 = p'.1 ∧ R p.2 p'.2) s.pop s'.pop

section
variable {R : State → State → Prop} {s s' t : State} {f : Fault} {o : Host.Outcome State Fault Refusal}

theorem Alike.of_next (h : Alike R (.next t) o) : ∃ t', o = .next t' ∧ R t t' := by
  cases h with
  | next h => exact ⟨_, rfl, h⟩

theorem Alike.of_fault (h : Alike R (.fault f) o) : o = .fault f := by
  cases h with
  | fault => rfl

/-! ### The shared operand operations -/

theorem withReg_alike {x : RegIndex} {k k' : Fin 16 → Host.Outcome State Fault Refusal}
    (hk : ∀ r, Alike R (k r) (k' r)) : Alike R (withReg x k) (withReg x k') := by
  unfold withReg raise
  split
  · exact hk _
  · exact .fault _

theorem withRegs_alike {x y : RegIndex} {k k' : Fin 16 → Fin 16 → Host.Outcome State Fault Refusal}
    (hk : ∀ r q, Alike R (k r q) (k' r q)) : Alike R (withRegs x y k) (withRegs x y k') :=
  withReg_alike fun r => withReg_alike fun q => hk r q

theorem withKey_alike {r : Fin 16} {k k' : Nat → Host.Outcome State Fault Refusal}
    (hk : ∀ n, Alike R (k n) (k' n)) : Alike R (withKey s r k) (withKey s r k') := by
  unfold withKey raise
  split
  · exact .fault _
  · exact hk _

theorem withBytesAtI_alike {n : Nat} {k k' : List Byte → Host.Outcome State Fault Refusal}
    (hk : ∀ bytes, Alike R (k bytes) (k' bytes)) : Alike R (withBytesAtI s n k) (withBytesAtI s n k') := by
  unfold withBytesAtI raise
  split
  · exact hk _
  · exact .fault _

namespace Respected

theorem setFlag (hR : Respected R) (c : Bool) (h : R s s') : R (s.setFlag c) (s'.setFlag c) := hR.setReg _ _ h

theorem setRegFlag (hR : Respected R) (r : Fin 16) (b : Byte) (c : Bool) (h : R s s') :
    R (s.setRegFlag r b c) (s'.setRegFlag r b c) := hR.setFlag c (hR.setReg r b h)

theorem pc_eq (hR : Respected R) (h : R s s') : s'.pc = s.pc := by rw [hR.operands h]

theorem advance (hR : Respected R) (h : R s s') : R s.advance s'.advance := by
  rw [State.advance, State.advance, hR.pc_eq h]
  exact hR.setPc _ h

theorem rewind (hR : Respected R) (h : R s s') : R s.rewind s'.rewind := by
  rw [State.rewind, State.rewind, hR.pc_eq h]
  exact hR.setPc _ h

theorem skipIf (hR : Respected R) (c : Bool) (h : R s s') : R (s.skipIf c) (s'.skipIf c) := by
  cases c with
  | false => exact h
  | true => exact hR.advance h

theorem storeAtI_alike (hR : Respected R) (bytes : List Byte) (h : R s s') :
    Alike R (storeAtI s bytes) (storeAtI s' bytes) := by
  have hi : s'.i = s.i := by rw [hR.operands h]
  have hm : s'.mem = s.mem := by rw [hR.operands h]
  unfold storeAtI raise
  rw [hi, hm]
  split
  · exact .next (hR.setMem _ h)
  · exact .fault _

theorem execLdVxK_alike (hR : Respected R) (x : RegIndex) (h : R s s') :
    Alike R (execLdVxK x s) (execLdVxK x s') := by
  have hkey : s'.firstKey = s.firstKey := by
    rw [hR.operands h]
    rfl
  refine withReg_alike fun r => ?_
  rw [hkey]
  cases s.firstKey with
  | some k => exact .next (hR.setReg r _ h)
  | none => exact .next (hR.rewind h)

theorem execCall_alike (hR : Respected R) (nnn : Addr12) (h : R s s') :
    Alike R (execCall nnn s) (execCall nnn s') := by
  have hpush := hR.push s.pc h
  unfold execCall raise
  rw [hR.pc_eq h]
  generalize s.push s.pc = p at hpush ⊢
  generalize s'.push s.pc = p' at hpush ⊢
  cases hpush with
  | some ht => exact .next (hR.setPc _ ht)
  | none => exact .fault _

theorem execRet_alike (hR : Respected R) (h : R s s') : Alike R (execRet s) (execRet s') := by
  have hpop := hR.pop h
  unfold execRet raise
  generalize s.pop = p at hpop ⊢
  generalize s'.pop = p' at hpop ⊢
  cases hpop with
  | @some a a' ht =>
    obtain ⟨w, u⟩ := a
    obtain ⟨w', u'⟩ := a'
    obtain ⟨rfl, ht⟩ := ht
    exact .next (hR.setPc _ ht)
  | none => exact .fault _

/-- From related states an instruction does the same, when it reads the same random byte or none. The second state is
written out over the first, so that every operand read from it is, by definition, the first one's. -/
theorem exec_alike (hR : Respected R) (i : Instr) (h : R s s') (hrnd : isRandom i → s'.randomByte = s.randomByte) :
    Alike R (exec i s) (exec i s') := by
  obtain ⟨stk, st', u, q, d, rfl⟩ : ∃ stk st' u q d,
      s' = { s with stack := stk, st := st', upd := u, rndIn := q, draws := d } := ⟨_, _, _, _, _, hR.operands h⟩
  cases i with
  | ldByte | addByte | ldVxDt =>
    simp only [exec, execLdByte, execAddByte, execLdVxDt]
    exact withReg_alike fun r => .next (hR.setReg r _ h)
  | ldReg | orReg | andReg | xorReg =>
    simp only [exec, execLdReg, execOrReg, execAndReg, execXorReg]
    exact withRegs_alike fun r q => .next (hR.setReg r _ h)
  | addReg | subReg | subnReg =>
    simp only [exec, execAddReg, execSubReg, execSubnReg]
    exact withRegs_alike fun r q => .next (hR.setRegFlag r _ _ h)
  | shr | shl =>
    simp only [exec, execShr, execShl]
    exact withReg_alike fun r => .next (hR.setRegFlag r _ _ h)
  | rnd =>
    simp only [exec, execRnd]
    rw [hrnd trivial]
    exact withReg_alike fun r => .next (hR.setReg r _ (hR.drawn h))
  | cls => exact .next (hR.display _ h)
  | drw =>
    simp only [exec, execDrw, spriteCells_find]
    exact withRegs_alike fun r q => withBytesAtI_alike fun rows => .next (hR.setFlag _ (hR.display _ h))
  | seByte | sneByte =>
    simp only [exec, execSeByte, execSneByte]
    exact withReg_alike fun r => .next (hR.skipIf _ h)
  | seReg | sneReg =>
    simp only [exec, execSeReg, execSneReg]
    exact withRegs_alike fun r q => .next (hR.skipIf _ h)
  | skp | sknp =>
    simp only [exec, execSkp, execSknp]
    exact withReg_alike fun r => withKey_alike fun k => .next (hR.skipIf _ h)
  | ldVxK => exact hR.execLdVxK_alike _ h
  | ldDtVx =>
    simp only [exec, execLdDtVx]
    exact withReg_alike fun r => .next (hR.setDt _ h)
  | ldStVx =>
    simp only [exec, execLdStVx]
    exact withReg_alike fun r => .next (hR.setSt _ h)
  | ldI => exact .next (hR.setI _ h)
  | addI | ldF =>
    simp only [exec, execAddI, execLdF]
    exact withReg_alike fun r => .next (hR.setI _ h)
  | ldB | storeRegs =>
    simp only [exec, execLdB, execStoreRegs]
    exact withReg_alike fun r => hR.storeAtI_alike _ h
  | loadRegs =>
    simp only [exec, execLoadRegs]
    exact withReg_alike fun r => withBytesAtI_alike fun bytes => .next (hR.setRegs bytes h)
  | jp | jpV0 => exact .next (hR.setPc _ h)
  | call => exact hR.execCall_alike _ h
  | ret => exact hR.execRet_alike h

/-- From related states with the same random byte a step does the same: the fetch reads PC and memory alone. -/
theorem step_alike (hR : Respected R) (h : R s s') (hrnd : s'.randomByte = s.randomByte) :
    Alike R (step s) (step s') := by
  have hfetch : fetchInstr s' = fetchInstr s := by
    rw [hR.operands h]
    rfl
  unfold step raise
  rw [hfetch]
  split
  · exact .fault _
  · exact hR.exec_alike _ (hR.advance h) fun _ => hrnd

end Respected
end

/-! ### ST and UPD -/

/-- `s'` differs from `s` at most in ST and UPD. -/
def SameButSoundAndUpdated (s s' : State) : Prop := s' = { s with st := s'.st, upd := s'.upd }

theorem sameButSoundAndUpdated_respected : Respected SameButSoundAndUpdated where
  operands h := by rw [SameOperands, h]
  setReg r b h := by rw [SameButSoundAndUpdated, h]; rfl
  setRegs bytes h := by rw [SameButSoundAndUpdated, h]; rfl
  setI w h := by rw [SameButSoundAndUpdated, h]; rfl
  setPc w h := by rw [SameButSoundAndUpdated, h]; rfl
  setDt b h := by rw [SameButSoundAndUpdated, h]; rfl
  setSt b h := by rw [SameButSoundAndUpdated, h]; rfl
  setMem m h := by rw [SameButSoundAndUpdated, h]; rfl
  display fb h := by rw [SameButSoundAndUpdated, h]; rfl
  drawn h := by rw [SameButSoundAndUpdated, h]; rfl
  push {s s'} w h := by
    rw [h]
    by_cases hsp : s.sp.val < 16
    · simp only [State.push, hsp, dif_pos]
      exact .some rfl
    · simp only [State.push, hsp, dif_neg, not_false_iff]
      exact .none
  pop {s s'} h := by
    rw [h]
    by_cases hsp : s.sp.val = 0
    · simp only [State.pop, hsp, dif_pos]
      exact .none
    · simp only [State.pop, hsp, dif_neg, not_false_iff]
      exact .some ⟨rfl, rfl⟩

/-- Settles O55: changing ST and UPD is a relation every instruction respects. -/
theorem soundTimerAndUpdatedFlagAreNeverRead : Obligations.SoundTimerAndUpdatedFlagAreNeverRead := by
  intro i s t b c h
  have hrel : SameButSoundAndUpdated s { s with st := b, upd := c } := rfl
  have halike := sameButSoundAndUpdated_respected.exec_alike i hrel fun _ => rfl
  rw [h] at halike
  exact halike.of_next

/-! ### Stack slots at and above SP -/

/-- A push writes the slot it makes live, the same in both states (R32). -/
theorem agreeBelowSp_push {s s' : State} (w : Word) (h : AgreeBelowSp s s') :
    Option.Rel AgreeBelowSp (s.push w) (s'.push w) := by
  obtain ⟨hslots, heq⟩ := h
  rw [heq]
  by_cases hsp : s.sp.val < 16
  · simp only [State.push, hsp, dif_pos]
    refine .some ⟨fun k hk => ?_, rfl⟩
    rw [Vector.getElem_set, Vector.getElem_set]
    split
    · rfl
    · exact hslots k (by dsimp only at hk; omega)
  · simp only [State.push, hsp, dif_neg, not_false_iff]
    exact .none

/-- A pop reads a live slot (R33). -/
theorem agreeBelowSp_pop {s s' : State} (h : AgreeBelowSp s s') :
    Option.Rel (fun p p' => p.1 = p'.1 ∧ AgreeBelowSp p.2 p'.2) s.pop s'.pop := by
  obtain ⟨hslots, heq⟩ := h
  rw [heq]
  by_cases hsp : s.sp.val = 0
  · simp only [State.pop, hsp, dif_pos]
    exact .none
  · have htop := hslots ⟨s.sp.val - 1, by omega⟩ (by dsimp only; omega)
    simp only [State.pop, hsp, dif_neg, not_false_iff]
    exact .some ⟨htop.symm, fun k hk => hslots k (by dsimp only at hk; omega), rfl⟩

theorem agreeBelowSp_respected : Respected AgreeBelowSp where
  operands h := by rw [SameOperands, h.2]
  setReg r b h := ⟨h.1, by rw [h.2]; rfl⟩
  setRegs bytes h := ⟨h.1, by rw [h.2]; rfl⟩
  setI w h := ⟨h.1, by rw [h.2]; rfl⟩
  setPc w h := ⟨h.1, by rw [h.2]; rfl⟩
  setDt b h := ⟨h.1, by rw [h.2]; rfl⟩
  setSt b h := ⟨h.1, by rw [h.2]; rfl⟩
  setMem m h := ⟨h.1, by rw [h.2]; rfl⟩
  display fb h := ⟨h.1, by rw [h.2]; rfl⟩
  drawn h := ⟨h.1, by rw [h.2]; rfl⟩
  push w h := agreeBelowSp_push w h
  pop h := agreeBelowSp_pop h

/-- Settles O56: a push writes the slot it makes live, a pop reads a live one, and nothing else touches the stack. -/
theorem staleStackSlotsAreNeverRead : Obligations.StaleStackSlotsAreNeverRead := by
  intro s s' h
  have hrnd : s'.randomByte = s.randomByte := by
    rw [h.2]
    rfl
  have halike := agreeBelowSp_respected.step_alike h hrnd
  constructor
  · intro t ht
    rw [ht] at halike
    exact halike.of_next
  · intro f hf
    rw [hf] at halike
    exact halike.of_fault

end Sys2Proof.Machine
end

/-! ## Faults of an instruction

A bad register operand faults before anything else; `exec_fault` lists what else an instruction can fault for. A decoded
instruction has no bad operand, and no draw computes a pixel outside the screen, so two of the faults never arise. -/
section
namespace Sys2Proof.Machine

open Sys2Proof.Statement

section
variable {s : State} {f : Fault} {x y : RegIndex}

/-! ### Register operands -/

theorem only_of_lt (hx : x < 16) : badRegister.only x = none := if_pos hx

theorem only_of_ge (hx : ¬x < 16) : badRegister.only x = some x := if_neg hx

theorem first_of_lt (hx : x < 16) : badRegister.first x y = badRegister.only y := if_pos hx

theorem first_of_ge (hx : ¬x < 16) : badRegister.first x y = some x := if_neg hx

theorem withReg_bad {n : Nat} {k : Fin 16 → Host.Outcome State Fault Refusal} (h : badRegister.only x = some n) :
    withReg x k = .fault (.invalidRegister n) := by
  by_cases hx : x < 16
  · rw [only_of_lt hx] at h
    cases h
  · rw [only_of_ge hx] at h
    cases h
    exact withReg_ge hx k

theorem withRegs_bad {n : Nat} {k : Fin 16 → Fin 16 → Host.Outcome State Fault Refusal}
    (h : badRegister.first x y = some n) : withRegs x y k = .fault (.invalidRegister n) := by
  by_cases hx : x < 16
  · rw [first_of_lt hx] at h
    rw [withRegs, withReg_lt hx]
    exact withReg_bad h
  · rw [first_of_ge hx] at h
    cases h
    exact withReg_ge hx _

/-! ### The causes of a fault -/

/-- How many bytes at I an instruction uses (R141, R173 to R175). -/
def bytesAtI : Instr → Nat
  | .drw _ _ n => n.toNat
  | .ldB _ => 3
  | .storeRegs x => x + 1
  | .loadRegs x => x + 1
  | _ => 0

/-- The faults an instruction can raise, each with its condition (R211); FramebufferOutOfBounds is not among them. -/
inductive FaultCause (i : Instr) (s : State) : Fault → Prop
  | register (n : Nat) (h : badRegister i = some n) : FaultCause i s (.invalidRegister n)
  | key (r : Fin 16) (hi : i = .skp r.val ∨ i = .sknp r.val) (h : 15 < (s.reg r).toNat) :
      FaultCause i s (.invalidKey (s.reg r))
  | index (hi : bytesAtI i ≠ 0) (h : 4096 < s.i.toNat + bytesAtI i) : FaultCause i s (.indexOutOfBounds s.i)
  | overflow (nnn : Addr12) (hi : i = .call nnn) (h : s.sp.val = 16) : FaultCause i s .stackOverflow
  | underflow (hi : i = .ret) (h : s.sp.val = 0) : FaultCause i s .stackUnderflow

theorem FaultCause.of_withReg {i : Instr} {k : Fin 16 → Host.Outcome State Fault Refusal} (h : withReg x k = .fault f)
    (hi : badRegister i = badRegister.only x) (hk : ∀ r : Fin 16, r.val = x → k r = .fault f → FaultCause i s f) :
    FaultCause i s f := by
  rcases withReg_fault h with ⟨hx, rfl⟩ | ⟨r, hr, h⟩
  · exact .register x (hi.trans (only_of_ge hx))
  · exact hk r hr h

theorem FaultCause.of_withRegs {i : Instr} {k : Fin 16 → Fin 16 → Host.Outcome State Fault Refusal}
    (h : withRegs x y k = .fault f) (hi : badRegister i = badRegister.first x y)
    (hk : ∀ r q, k r q = .fault f → FaultCause i s f) : FaultCause i s f := by
  rcases withReg_fault h with ⟨hx, rfl⟩ | ⟨r, rfl, hr⟩
  · exact .register x (hi.trans (first_of_ge hx))
  · exact .of_withReg hr (hi.trans (first_of_lt r.isLt)) fun q _ hq => hk r q hq

/-- What an instruction that faults has met. -/
theorem exec_fault {i : Instr} (h : exec i s = .fault f) : FaultCause i s f := by
  cases i with
  | cls | jp | jpV0 | ldI => cases h
  | seByte | sneByte | ldByte | addByte | shr | shl | rnd | ldVxDt | ldDtVx | ldStVx | addI | ldF =>
    simp only [exec, execSeByte, execSneByte, execLdByte, execAddByte, execShr, execShl, execRnd, execLdVxDt, execLdDtVx,
      execLdStVx, execAddI, execLdF] at h
    exact .of_withReg h rfl nofun
  | seReg | sneReg | ldReg | orReg | andReg | xorReg | addReg | subReg | subnReg =>
    simp only [exec, execSeReg, execSneReg, execLdReg, execOrReg, execAndReg, execXorReg, execAddReg, execSubReg,
      execSubnReg] at h
    exact .of_withRegs h rfl nofun
  | drw x y n =>
    simp only [exec, execDrw, spriteCells_find] at h
    refine .of_withRegs h rfl fun r q h => ?_
    rcases withBytesAtI_fault h with ⟨rfl, hn, hb⟩ | ⟨_, h⟩
    · exact .index hn hb
    · cases h
  | loadRegs x =>
    simp only [exec, execLoadRegs] at h
    refine .of_withReg h rfl ?_
    rintro r rfl hr
    rcases withBytesAtI_fault hr with ⟨rfl, hn, hb⟩ | ⟨_, h⟩
    · exact .index hn hb
    · cases h
  | ldB x =>
    simp only [exec, execLdB] at h
    refine .of_withReg h rfl fun r _ h => ?_
    obtain ⟨rfl, hb⟩ := storeAtI_fault h
    exact .index (Nat.succ_ne_zero 2) hb
  | storeRegs x =>
    simp only [exec, execStoreRegs] at h
    refine .of_withReg h rfl ?_
    rintro r rfl hr
    obtain ⟨rfl, hb⟩ := storeAtI_fault hr
    rw [State.length_regBlock] at hb
    exact .index (Nat.succ_ne_zero r.val) (by show 4096 < s.i.toNat + (r.val + 1); omega)
  | skp | sknp =>
    simp only [exec, execSkp, execSknp] at h
    refine .of_withReg h rfl ?_
    rintro r rfl hr
    rcases withKey_fault hr with ⟨hk, rfl⟩ | hk
    · exact .key r (by simp) hk
    · cases hk
  | ldVxK =>
    simp only [exec, execLdVxK] at h
    refine .of_withReg h rfl fun r _ hr => ?_
    split at hr
    · cases hr
    · cases hr
  | call nnn =>
    simp only [exec, execCall, raise] at h
    split at h
    · cases h
    · rename_i hpush
      cases h
      exact .overflow nnn rfl (State.push_eq_none.mp hpush)
  | ret =>
    simp only [exec, execRet, raise] at h
    split at h
    · cases h
    · rename_i hpop
      cases h
      exact .underflow rfl (State.pop_eq_none.mp hpop)

/-! ### Decoded instructions -/

/-- The register fields of a word have four bits (R81), so each names a register (R23). -/
theorem regIndex_ok_nibble (b : Nibble) : RegIndex.ok b.toNat = true := decide_eq_true b.isLt

theorem regIndex_ok_nibbles (b c : Nibble) : (RegIndex.ok b.toNat && RegIndex.ok c.toNat) = true :=
  Bool.and_eq_true_iff.mpr ⟨regIndex_ok_nibble b, regIndex_ok_nibble c⟩

theorem dispatch0_wellFormed {w : Fields} {i : Instr} (h : dispatch0 w = some i) : i.wellFormed = true := by
  unfold dispatch0 at h
  split at h
  · split at h
    · cases h; rfl
    · cases h; rfl
    · cases h
  · cases h

theorem dispatch8_wellFormed {w : Fields} {i : Instr} (h : dispatch8 w = some i) : i.wellFormed = true := by
  unfold dispatch8 at h
  split at h <;> cases h
  case h_7 | h_9 => exact regIndex_ok_nibble _
  all_goals exact regIndex_ok_nibbles _ _

theorem dispatchE_wellFormed {w : Fields} {i : Instr} (h : dispatchE w = some i) : i.wellFormed = true := by
  unfold dispatchE at h
  split at h <;> cases h <;> exact regIndex_ok_nibble _

theorem dispatchF_wellFormed {w : Fields} {i : Instr} (h : dispatchF w = some i) : i.wellFormed = true := by
  unfold dispatchF at h
  split at h <;> cases h <;> exact regIndex_ok_nibble _

theorem decodeWord_wellFormed {w : Word} {i : Instr} (h : decodeWord w = some i) : i.wellFormed = true := by
  unfold decodeWord dispatch at h
  split at h
  · exact dispatch0_wellFormed h
  · cases h
    rfl
  · cases h
    rfl
  · cases h
    exact regIndex_ok_nibble _
  · cases h
    exact regIndex_ok_nibble _
  · split at h
    · cases h
      exact regIndex_ok_nibbles _ _
    · cases h
  · cases h
    exact regIndex_ok_nibble _
  · cases h
    exact regIndex_ok_nibble _
  · exact dispatch8_wellFormed h
  · split at h
    · cases h
      exact regIndex_ok_nibbles _ _
    · cases h
  · cases h
    rfl
  · cases h
    rfl
  · cases h
    exact regIndex_ok_nibble _
  · cases h
    exact regIndex_ok_nibbles _ _
  · exact dispatchE_wellFormed h
  · exact dispatchF_wellFormed h
  · cases h

theorem badRegister_of_wellFormed {i : Instr} (h : i.wellFormed = true) : badRegister i = none := by
  cases i with
  | cls | ret | jp | call | ldI | jpV0 => rfl
  | seReg | sneReg | ldReg | orReg | andReg | xorReg | addReg | subReg | subnReg | drw =>
    obtain ⟨hx, hy⟩ := Bool.and_eq_true_iff.mp h
    exact (first_of_lt (of_decide_eq_true hx)).trans (only_of_lt (of_decide_eq_true hy))
  | seByte | sneByte | ldByte | addByte | shr | shl | rnd | skp | sknp | ldVxDt | ldVxK | ldDtVx | ldStVx | addI | ldF
  | ldB | storeRegs | loadRegs => exact only_of_lt (of_decide_eq_true h)

/-- Why a step faults, the causes inside an instruction among them. -/
theorem step_fault_cause (h : step s = .fault f) :
    f = .pcOutOfBounds s.pc ∨ (∃ w, f = .invalidOpcode w) ∨
      ∃ i : Instr, i.wellFormed = true ∧ FaultCause i s.advance f := by
  rcases step_fault h with ⟨-, rfl⟩ | ⟨w, -, ⟨-, rfl⟩ | ⟨i, hi, h⟩⟩
  · exact .inl rfl
  · exact .inr (.inl ⟨w, rfl⟩)
  · exact .inr (.inr ⟨i, decodeWord_wellFormed hi, exec_fault h⟩)

theorem step_ne_refused (s : State) (z : Refusal) : step s ≠ .refused z := by
  unfold step raise
  split
  · exact nofun
  · exact exec_ne_refused _ _ z

end

/-- Settles O59: each handler checks its register operands first, X before Y. -/
theorem badRegisterIndexFaults : Obligations.BadRegisterIndexFaults := by
  intro i s n h
  cases i with
  | cls | ret | jp | call | ldI | jpV0 => cases h
  | seReg | sneReg | ldReg | orReg | andReg | xorReg | addReg | subReg | subnReg | drw =>
    simp only [exec, execSeReg, execSneReg, execLdReg, execOrReg, execAndReg, execXorReg, execAddReg, execSubReg,
      execSubnReg, execDrw]
    exact withRegs_bad h
  | seByte | sneByte | ldByte | addByte | shr | shl | rnd | skp | sknp | ldVxDt | ldVxK | ldDtVx | ldStVx | addI | ldF
  | ldB | storeRegs | loadRegs =>
    simp only [exec, execSeByte, execSneByte, execLdByte, execAddByte, execShr, execShl, execRnd, execSkp, execSknp,
      execLdVxDt, execLdVxK, execLdDtVx, execLdStVx, execAddI, execLdF, execLdB, execStoreRegs, execLoadRegs]
    exact withReg_bad h

/-- Settles O58: a decoded instruction is well-formed, and of the causes of a fault only a bad register index raises
InvalidRegister and none FramebufferOutOfBounds. -/
theorem defensiveFaultsAreUnreachable : Obligations.DefensiveFaultsAreUnreachable := by
  intro s
  refine ⟨fun n h => ?_, fun n h => ?_, step_ne_refused s⟩
  · obtain h | ⟨_, h⟩ | ⟨i, hwf, h⟩ := step_fault_cause h
    · cases h
    · cases h
    · cases h with
      | register _ hbad => cases (badRegister_of_wellFormed hwf).symm.trans hbad
  · obtain h | ⟨_, h⟩ | ⟨i, hwf, h⟩ := step_fault_cause h
    · cases h
    · cases h
    · cases h

end Sys2Proof.Machine
end

/-! ## Memory

The four access primitives (R53 to R56) by what they answer for each byte, memories in canonical form told apart by their
reads, the word FX55 stores as the next one fetched, and the instructions that leave memory and the stack alone. -/
section
namespace Sys2Proof.Machine

namespace Memory

variable {m m' : Memory} {a : Nat}

/-! ### The access primitives, byte by byte -/

theorem read_eq_none (h : ¬a < Config.memSize) : m.read a = none := if_neg h

theorem read_eq_some_iff {v : Byte} : m.read a = some v ↔ a < Config.memSize ∧ m.get a = v := by
  by_cases h : a < Config.memSize
  · simp [read_eq_get h, h]
  · simp [read_eq_none h, h]

theorem isSome_read_iff : (m.read a).isSome = true ↔ a ≤ 4095 := by
  simp only [Option.isSome_iff_exists, read_eq_some_iff, exists_and_left, exists_eq', and_true]
  exact Nat.lt_succ_iff

/-- A word read needs both bytes, the high one at the lower address (R54, R57). -/
theorem readWord_eq_some_iff_bytes {w : Word} :
    m.readWord a = some w ↔
      ∃ hi lo, m.read a = some hi ∧ m.read (a + 1) = some lo ∧ w.toNat = hi.toNat * 256 + lo.toNat := by
  rw [readWord_eq_some, ← BitVec.toNat_inj, toNat_append_eq]
  simp only [read_eq_some_iff]
  constructor
  · rintro ⟨hlt, hw⟩
    exact ⟨_, _, ⟨Nat.lt_of_succ_lt hlt, rfl⟩, ⟨hlt, rfl⟩, hw⟩
  · rintro ⟨_, _, ⟨-, rfl⟩, ⟨hlt, rfl⟩, hw⟩
    exact ⟨hlt, hw⟩

/-- What a byte write leaves in every byte (R55). -/
theorem read_put {v : Byte} (h : m.sorted) (ha : a < Config.memSize) (b : Nat) :
    (m.put a v).read b = if b = a then some v else m.read b := by
  by_cases hb : b = a
  · subst hb
    rw [if_pos rfl, read_eq_get ha, get_put _ _ _ _ h, if_pos rfl]
  · rw [if_neg hb]
    exact read_congr (by rw [get_put _ _ _ _ h, if_neg hb])

/-- What a range write leaves in every byte (R56). -/
theorem read_putAll {bytes : List Byte} (h : m.sorted) (ha : a + bytes.length ≤ Config.memSize) (b : Nat) :
    (m.putAll a bytes).read b = if a ≤ b ∧ b < a + bytes.length then bytes[b - a]? else m.read b := by
  by_cases hb : a ≤ b ∧ b < a + bytes.length
  · have hlt : b - a < bytes.length := by omega
    rw [if_pos hb, read_eq_get (by omega), get_putAll _ _ _ _ h, if_pos hb, List.getElem?_eq_getElem hlt,
      List.getD_eq_getElem _ _ hlt]
  · rw [if_neg hb]
    exact read_congr (by rw [get_putAll _ _ _ _ h, if_neg hb])

/-! ### The canonical form -/

theorem get_of_mem {c : Host.Cell} (h : m.sorted) (hc : c ∈ m) : m.get c.1 = c.2 := by
  induction m with
  | nil => cases hc
  | cons d m ih =>
    obtain ⟨hlt, hs⟩ := List.pairwise_cons.mp h
    rcases List.mem_cons.mp hc with rfl | hc
    · exact if_pos rfl
    · exact (if_neg (Nat.ne_of_gt (hlt c hc))).trans (ih hs hc)

theorem mem_of_get_ne_unlisted (h : m.get a ≠ unlisted a) : (a, m.get a) ∈ m := by
  induction m with
  | nil => exact absurd rfl h
  | cons d m ih =>
    obtain ⟨b, w⟩ := d
    by_cases hab : a = b
    · subst hab
      simp [get]
    · rw [get, if_neg hab] at h ⊢
      exact List.mem_cons_of_mem _ (ih h)

/-- The canonical form lists exactly the bytes that read otherwise than after reset. -/
theorem mem_iff_read (h : m.wf) {c : Host.Cell} : c ∈ m ↔ m.read c.1 = some c.2 ∧ c.2 ≠ unlisted c.1 := by
  rw [read_eq_some_iff]
  constructor
  · intro hc
    obtain ⟨hlt, hne⟩ := h.2 c hc
    exact ⟨⟨hlt, get_of_mem h.sorted hc⟩, hne⟩
  · rintro ⟨⟨-, hget⟩, hne⟩
    rw [← hget] at hne
    have hmem := mem_of_get_ne_unlisted hne
    rwa [hget] at hmem

/-- Two lists in canonical form that read the same list the same bytes, in the same rising order. -/
theorem eq_of_read_eq (h : m.wf) (h' : m'.wf) (hr : ∀ a, m.read a = m'.read a) : m = m' := by
  refine h.sorted.eq_of_mem_iff h'.sorted fun c => ?_
  rw [mem_iff_read h, mem_iff_read h', hr]

end Memory

/-- Settles O39: each clause is the primitive's bound, with what it leaves in every byte. -/
theorem memoryPrimitives : Obligations.MemoryPrimitives := by
  intro m a v bytes h
  refine ⟨Memory.isSome_read_iff, fun w => Memory.readWord_eq_some_iff_bytes, fun ha => ?_, fun ha => ?_, fun hb => ?_,
    Memory.writeRange_eq_none.mpr⟩
  · have hlt : a < Config.memSize := Nat.lt_succ_of_le ha
    exact ⟨_, Memory.write_eq_some.mpr ⟨hlt, rfl⟩, Memory.put_wf v h hlt, Memory.read_put h.sorted hlt⟩
  · exact if_neg (Nat.not_lt.mpr ha)
  · exact ⟨_, Memory.writeRange_eq_some.mpr ⟨hb, rfl⟩, Memory.putAll_wf a bytes h hb, Memory.read_putAll h.sorted hb⟩

/-- Settles O40: the reads say which bytes a canonical list holds. -/
theorem equalReadsAreEqualMemories : Obligations.EqualReadsAreEqualMemories :=
  fun _ _ h h' hr => Memory.eq_of_read_eq h h' hr

/-- What FX55 leaves at the addresses it writes (R174). -/
theorem get_putAll_regBlock {s : State} (h : s.mem.sorted) (start : Nat) {x k : Fin 16} (hk : k.val ≤ x.val) :
    (s.mem.putAll start (s.regBlock x.val)).get (start + k.val) = s.reg k := by
  have hx := x.isLt
  have hin : start ≤ start + k.val ∧ start + k.val < start + (s.regBlock x.val).length := by
    rw [State.length_regBlock]
    omega
  rw [Memory.get_putAll _ _ _ _ h, if_pos hin, Nat.add_sub_cancel_left, State.getD_regBlock s _ k hk]

theorem readWord_putAll_regBlock {s : State} (h : s.mem.sorted) {start : Nat} {x : Fin 16} (hx : 1 ≤ x.val)
    (hlt : start + 1 < Config.memSize) :
    (s.mem.putAll start (s.regBlock x.val)).readWord start = some (s.reg 0 ++ s.reg 1) := by
  have hhi := get_putAll_regBlock (k := 0) h start (Nat.zero_le x.val)
  have hlo := get_putAll_regBlock (k := 1) h start hx
  exact Memory.readWord_eq_some.mpr ⟨hlt, (congrArg₂ (· ++ ·) hhi hlo).symm⟩

/-- Settles O35: the fetch reads the two bytes that FX55 took from V0 and V1. -/
theorem storedWordIsTheNextFetched : Obligations.StoredWordIsTheNextFetched := by
  intro s t x h hx hexec
  obtain ⟨r, hr, hb, rfl⟩ := exec_storeRegs_next.mp hexec
  cases Fin.ext hr
  have hlt : s.i.toNat + 1 < 4096 := by omega
  exact ⟨_, fetch_eq_ok.mpr (readWord_putAll_regBlock h.sorted hx hlt), toNat_append_eq _ _⟩

/-- Settles O53: of the kinds of update only `store` writes memory, and only `call` and `ret` the stack. -/
theorem onlyStoresChangeMemoryAndOnlyCallsTheStack : Obligations.OnlyStoresChangeMemoryAndOnlyCallsTheStack := by
  intro i s t h
  cases exec_effect h with
  | store bytes hi => exact ⟨fun hn => absurd hi hn, fun _ => ⟨rfl, rfl⟩⟩
  | call w _ hs | ret _ hs => exact ⟨fun _ _ => rfl, fun hn => absurd hs hn⟩
  | skip c => exact ⟨fun _ a => by rw [State.skipIf_mem], fun _ => ⟨State.skipIf_sp s c, State.skipIf_stack s c⟩⟩
  | setReg | setRegFlag | setRegs | random | display | draw | setI | setDt | setSt | rewind | jump =>
    exact ⟨fun _ _ => rfl, fun _ => ⟨rfl, rfl⟩⟩

end Sys2Proof.Machine
end

/-! ## Encoding

Dispatch sees only the fields of a word. So each format of R83 has one lemma that decodes its words and one that makes a
word again from its fields, and each mask of R86 one that says which fields it fixes; an instruction is then a case of its
format, or of its mask. -/
section
namespace Sys2Proof

/-! ### Decoding the words of a format

Each dispatch is for arbitrary values of the fields that the format does not set on its own. -/

/-- A register index that passes the check of R23 is the value of its field. -/
theorem eq_toNat_regField {r : RegIndex} (h : r.ok = true) : r = (regField r).toNat :=
  (regField_toNat.trans (Nat.mod_eq_of_lt (of_decide_eq_true h))).symm

section
variable {p n : Nibble} {nn : Byte} {r r' : RegIndex} {i : Instr}

theorem decodeWord_addrWord {nnn : Addr12} (h : ∀ x y n nn, dispatch ⟨p, x, y, n, nn, nnn⟩ = some i) :
    decodeWord (addrWord p nnn) = some i := by
  obtain ⟨hp, hnnn⟩ := fieldsOf_addrWord p nnn
  unfold decodeWord
  generalize fieldsOf (addrWord p nnn) = f at hp hnnn ⊢
  subst hp hnnn
  exact h _ _ _ _

theorem decodeWord_regImmWord (hr : r.ok = true)
    (h : ∀ x : Nibble, r = x.toNat → ∀ y n nnn, dispatch ⟨p, x, y, n, nn, nnn⟩ = some i) :
    decodeWord (regImmWord p r nn) = some i := by
  obtain ⟨hp, hx, hnn⟩ := fieldsOf_regImmWord p r nn
  unfold decodeWord
  generalize fieldsOf (regImmWord p r nn) = f at hp hx hnn ⊢
  subst hp hnn
  exact h f.x (hx ▸ eq_toNat_regField hr) _ _ _

theorem decodeWord_regRegWord {y : Nibble} (hr : r.ok = true)
    (h : ∀ x : Nibble, r = x.toNat → ∀ nn nnn, dispatch ⟨p, x, y, n, nn, nnn⟩ = some i) :
    decodeWord (regRegWord p (regField r) y n) = some i := by
  obtain ⟨hp, hx, hy, hn⟩ := fieldsOf_regRegWord p (regField r) y n
  unfold decodeWord
  generalize fieldsOf (regRegWord p (regField r) y n) = f at hp hx hy hn ⊢
  subst hp hy hn
  exact h f.x (hx ▸ eq_toNat_regField hr) _ _

theorem decodeWord_regRegWord_regs (hr : (r.ok && r'.ok) = true)
    (h : ∀ x y : Nibble, r = x.toNat → r' = y.toNat → ∀ nn nnn, dispatch ⟨p, x, y, n, nn, nnn⟩ = some i) :
    decodeWord (regRegWord p (regField r) (regField r') n) = some i := by
  obtain ⟨hx, hy⟩ := Bool.and_eq_true_iff.mp hr
  exact decodeWord_regRegWord hx fun x hx => h x _ hx (eq_toNat_regField hy)

end

theorem decodeWord_encodeWord {i : Instr} (h : i.wellFormed = true) : decodeWord (encodeWord i) = some i := by
  cases i with
  | cls | ret => rfl
  | jp | call | ldI | jpV0 => exact decodeWord_addrWord fun _ _ _ _ => rfl
  | seByte | sneByte | ldByte | addByte | rnd | skp | sknp | ldVxDt | ldVxK | ldDtVx | ldStVx | addI | ldF | ldB
  | storeRegs | loadRegs =>
    refine decodeWord_regImmWord h ?_
    rintro x rfl _ _ _
    rfl
  | shr | shl =>
    refine decodeWord_regRegWord h ?_
    rintro x rfl _ _
    rfl
  | seReg | ldReg | orReg | andReg | xorReg | addReg | subReg | subnReg | sneReg | drw =>
    refine decodeWord_regRegWord_regs h ?_
    rintro x y rfl rfl _ _
    rfl

theorem decode_wordBytes_append {w : Word} {i : Instr} (h : decodeWord w = some i) (rest : List Byte) :
    decode (wordBytes w ++ rest) = .ok (i, rest) := by
  simp only [wordBytes, List.cons_append, List.nil_append, decode, wordBytes_append, h]

/-- Settles O3: the two bytes make the word again, and its fields are the operands. -/
theorem decodeOfEncodeIsTheInstruction : Obligations.DecodeOfEncodeIsTheInstruction :=
  fun _ rest h => decode_wordBytes_append (decodeWord_encodeWord h) rest

/-! ### A word is made of its fields -/

theorem regField_toNat_nibble (b : Nibble) : regField b.toNat = b := BitVec.ofNat_toNat 4 b

section
variable {w : Word} {p n : Nibble} {nn : Byte} {i : Instr}

theorem addrWord_fieldsOf (hp : (fieldsOf w).p.toNat = p.toNat) : addrWord p (fieldsOf w).nnn = w := by
  apply BitVec.eq_of_toNat_eq
  rw [addrWord_toNat, ← hp, fieldsOf_p, fieldsOf_nnn]
  omega

theorem regImmWord_fieldsOf (hp : (fieldsOf w).p.toNat = p.toNat) (hnn : (fieldsOf w).nn.toNat = nn.toNat) :
    regImmWord p (fieldsOf w).x.toNat nn = w := by
  apply BitVec.eq_of_toNat_eq
  rw [regImmWord_toNat, ← hp, ← hnn, fieldsOf_p, fieldsOf_x, fieldsOf_nn]
  omega

/-- As in a shift, which keeps the Y field as the bits it is (R88). -/
theorem regRegWord_fieldsOf (hp : (fieldsOf w).p.toNat = p.toNat) (hn : (fieldsOf w).n.toNat = n.toNat) :
    regRegWord p (regField (fieldsOf w).x.toNat) (fieldsOf w).y n = w := by
  apply BitVec.eq_of_toNat_eq
  rw [regRegWord_toNat, regField_toNat_nibble, ← hp, ← hn, fieldsOf_p, fieldsOf_x, fieldsOf_y, fieldsOf_n]
  omega

theorem regRegWord_fieldsOf_regs (hp : (fieldsOf w).p.toNat = p.toNat) (hn : (fieldsOf w).n.toNat = n.toNat) :
    regRegWord p (regField (fieldsOf w).x.toNat) (regField (fieldsOf w).y.toNat) n = w := by
  rw [regField_toNat_nibble (fieldsOf w).y]
  exact regRegWord_fieldsOf hp hn

theorem encodeWord_of_dispatch0 (hp : (fieldsOf w).p.toNat = 0) (h : dispatch0 (fieldsOf w) = some i) :
    encodeWord i = w := by
  unfold dispatch0 at h
  split at h
  · next hx =>
    have hx : (fieldsOf w).x.toNat = 0 := congrArg BitVec.toNat hx
    rw [← regImmWord_fieldsOf (p := 0) hp rfl, hx]
    split at h
    all_goals cases h
    · next hnn => rw [BitVec.eq_of_toNat_eq (y := 0xE0#8) hnn]; rfl
    · next hnn => rw [BitVec.eq_of_toNat_eq (y := 0xEE#8) hnn]; rfl
  · cases h

theorem encodeWord_of_dispatch8 (hp : (fieldsOf w).p.toNat = 8) (h : dispatch8 (fieldsOf w) = some i) :
    encodeWord i = w := by
  unfold dispatch8 at h
  split at h <;> cases h
  case h_7 | h_9 => exact regRegWord_fieldsOf hp ‹_›
  all_goals exact regRegWord_fieldsOf_regs hp ‹_›

theorem encodeWord_of_dispatchE (hp : (fieldsOf w).p.toNat = 0xE) (h : dispatchE (fieldsOf w) = some i) :
    encodeWord i = w := by
  unfold dispatchE at h
  split at h <;> cases h <;> exact regImmWord_fieldsOf hp ‹_›

theorem encodeWord_of_dispatchF (hp : (fieldsOf w).p.toNat = 0xF) (h : dispatchF (fieldsOf w) = some i) :
    encodeWord i = w := by
  unfold dispatchF at h
  split at h <;> cases h <;> exact regImmWord_fieldsOf hp ‹_›

theorem encodeWord_of_decodeWord (h : decodeWord w = some i) : encodeWord i = w := by
  unfold decodeWord dispatch at h
  split at h
  case h_1 hp => exact encodeWord_of_dispatch0 hp h
  case h_9 hp => exact encodeWord_of_dispatch8 hp h
  case h_15 hp => exact encodeWord_of_dispatchE hp h
  case h_16 hp => exact encodeWord_of_dispatchF hp h
  case h_6 | h_10 =>
    split at h <;> cases h
    exact regRegWord_fieldsOf_regs ‹_› (congrArg BitVec.toNat ‹_›)
  all_goals cases h
  case h_2 | h_3 | h_11 | h_12 => exact addrWord_fieldsOf ‹_›
  case h_14 => exact regRegWord_fieldsOf_regs ‹_› rfl
  all_goals exact regImmWord_fieldsOf ‹_› rfl

end

/-- Settles O4: dispatch names the format and its fixed fields, and the fields make the word again. -/
theorem encodeOfDecodeIsTheWord : Obligations.EncodeOfDecodeIsTheWord :=
  fun _ _ h => ⟨Machine.decodeWord_wellFormed h, encodeWord_of_decodeWord h⟩

/-! ### The match table -/

open Laws.EncodedRow in
theorem encodeWord_mask (i : Instr) : encodeWord i &&& i.row.mask = i.row.pattern := by
  cases i
  exacts [cls, ret, jp _, call _, seByte _ _, sneByte _ _, seReg _ _, ldByte _ _, addByte _ _, ldReg _ _, orReg _ _,
    andReg _ _, xorReg _ _, addReg _ _, subReg _ _, shr _ _, subnReg _ _, shl _ _, sneReg _ _, ldI _, jpV0 _, rnd _ _,
    drw _ _ _, skp _, sknp _, ldVxDt _, ldVxK _, ldDtVx _, ldStVx _, addI _, ldF _, ldB _, storeRegs _, loadRegs _]

section
variable {w m : Word}

/-- The mask F000 fixes the field P. -/
theorem fieldsOf_eq_of_mask_p (h : w &&& 0xF000#16 = m) : fieldsOf w = { fieldsOf w with p := (fieldsOf m).p } := by
  have hm : m = addrWord (fieldsOf w).p 0#12 := h.symm.trans (and_mask_p w)
  rw [hm, (fieldsOf_addrWord _ _).1]

/-- The mask F0FF fixes P and NN. -/
theorem fieldsOf_eq_of_mask_p_nn (h : w &&& 0xF0FF#16 = m) :
    fieldsOf w = { fieldsOf w with p := (fieldsOf m).p, nn := (fieldsOf m).nn } := by
  have hm : m = regImmWord (fieldsOf w).p 0 (fieldsOf w).nn := h.symm.trans (and_mask_p_nn w)
  obtain ⟨hp, -, hnn⟩ := fieldsOf_regImmWord (fieldsOf w).p 0 (fieldsOf w).nn
  rw [hm, hp, hnn]

/-- The mask F00F fixes P and N. -/
theorem fieldsOf_eq_of_mask_p_n (h : w &&& 0xF00F#16 = m) :
    fieldsOf w = { fieldsOf w with p := (fieldsOf m).p, n := (fieldsOf m).n } := by
  have hm : m = regRegWord (fieldsOf w).p 0#4 0#4 (fieldsOf w).n := by
    apply BitVec.eq_of_toNat_eq
    rw [← h, and_mask_p_n, regRegWord_toNat, toNat_append_eq, toNat_append_eq, BitVec.toNat_ofNat,
      BitVec.toNat_ofNat]
    omega
  obtain ⟨hp, -, -, hn⟩ := fieldsOf_regRegWord (fieldsOf w).p 0#4 0#4 (fieldsOf w).n
  rw [hm, hp, hn]

theorem decodeWord_of_mask {i : Instr} (h : w &&& i.row.mask = i.row.pattern) :
    ∃ j, decodeWord w = some j ∧ j.row = i.row := by
  unfold decodeWord
  cases i with
  | cls | ret =>
    rw [show w = _ from BitVec.and_allOnes.symm.trans h]
    exact ⟨_, rfl, rfl⟩
  | jp | call | seByte | sneByte | ldByte | addByte | ldI | jpV0 | rnd | drw =>
    dsimp only [Instr.row] at h
    rw [fieldsOf_eq_of_mask_p h]
    exact ⟨_, rfl, rfl⟩
  | seReg | ldReg | orReg | andReg | xorReg | addReg | subReg | shr | subnReg | shl | sneReg =>
    dsimp only [Instr.row] at h
    rw [fieldsOf_eq_of_mask_p_n h]
    exact ⟨_, rfl, rfl⟩
  | skp | sknp | ldVxDt | ldVxK | ldDtVx | ldStVx | addI | ldF | ldB | storeRegs | loadRegs =>
    dsimp only [Instr.row] at h
    rw [fieldsOf_eq_of_mask_p_nn h]
    exact ⟨_, rfl, rfl⟩

end

/-- Settles O5: a word that decodes is the encoded word of its instruction, which lies in its row; and a row's mask fixes
the fields that dispatch selects the row by. -/
theorem patternsSelectTheInstruction : Obligations.PatternsSelectTheInstruction :=
  ⟨fun _ i h => encodeWord_of_decodeWord h ▸ encodeWord_mask i, fun _ _ h => decodeWord_of_mask h⟩

/-! ### Invalid words -/

section
variable {f : Fields}

theorem dispatch0_eq_none : dispatch0 f = none ↔ f.x.toNat = 0 → f.nn.toNat ≠ 0xE0 ∧ f.nn.toNat ≠ 0xEE := by
  unfold dispatch0
  split
  · split <;> simp_all
  · next hx =>
    have hx : f.x.toNat ≠ 0 := fun h => hx (BitVec.eq_of_toNat_eq h)
    simp [hx]

theorem dispatch8_eq_none : dispatch8 f = none ↔ f.n.toNat ∈ [0x8, 0x9, 0xA, 0xB, 0xC, 0xD, 0xF] := by
  have hlt := f.n.isLt
  unfold dispatch8
  split
  case h_10 =>
    simp only [imp_false, true_iff, List.mem_cons, List.not_mem_nil, or_false] at *
    omega
  all_goals simp [*]

theorem dispatchE_eq_none : dispatchE f = none ↔ f.nn.toNat ∉ [0x9E, 0xA1] := by
  unfold dispatchE
  split <;> simp_all

theorem dispatchF_eq_none :
    dispatchF f = none ↔ f.nn.toNat ∉ [0x07, 0x0A, 0x15, 0x18, 0x1E, 0x29, 0x33, 0x55, 0x65] := by
  unfold dispatchF
  split <;> simp_all

theorem dispatch_eq_none : dispatch f = none ↔
    (f.p.toNat = 0 ∧ dispatch0 f = none) ∨ (f.p.toNat = 5 ∧ f.n.toNat ≠ 0) ∨ (f.p.toNat = 8 ∧ dispatch8 f = none) ∨
      (f.p.toNat = 9 ∧ f.n.toNat ≠ 0) ∨ (f.p.toNat = 0xE ∧ dispatchE f = none) ∨
      (f.p.toNat = 0xF ∧ dispatchF f = none) := by
  have hlt := f.p.isLt
  unfold dispatch
  split
  case h_17 =>
    exfalso
    simp only [imp_false] at *
    omega
  all_goals simp [*, ← BitVec.toNat_inj]

end

/-- Settles O6: dispatch answers no instruction only in the branches of R89, and their fields are slices of the word. -/
theorem invalidWordsAreExactlyTheTable : Obligations.InvalidWordsAreExactlyTheTable := by
  intro w
  have h0 : dispatch0 (fieldsOf w) = none ↔ w.toNat % 4096 ≠ 0x0E0 ∧ w.toNat % 4096 ≠ 0x0EE := by
    rw [dispatch0_eq_none, fieldsOf_x, fieldsOf_nn]
    omega
  unfold decodeWord
  rw [dispatch_eq_none, h0, dispatch8_eq_none, dispatchE_eq_none, dispatchF_eq_none, fieldsOf_p, fieldsOf_n, fieldsOf_nn]

/-! ### Fields and sample words -/

/-- Settles O1: each word is evaluated. -/
theorem specWordsDecode : Obligations.SpecWordsDecode := by
  unfold Obligations.SpecWordsDecode
  decide

/-- Settles O2: the slices are those of the model's laws, and the two identities are of quotients and remainders. -/
theorem fieldsAreTheBitSlices : Obligations.FieldsAreTheBitSlices := by
  refine ⟨fun w => ?_, by decide⟩
  rw [fieldsOf_p, fieldsOf_x, fieldsOf_y, fieldsOf_n, fieldsOf_nn, fieldsOf_nnn]
  omega

end Sys2Proof
end

/-! ## The step cycle

One lemma for each of the three ways a step can begin (R101 to R104): a word that decodes, a word that does not, and no
word at all. Two more carry an outcome of `step` that is the same for every random input to STEP(rnd) as the host sees it
(R132, R191). -/
section
namespace Sys2Proof.Machine

section
variable {s : State} {w : Word} {f : Fault}

/-! ### How a step begins -/

/-- The converse of `pc_le_of_readWord`, with the word that is read (R54, R101). -/
theorem readWord_of_pc_le (h : s.pc.toNat ≤ 4094) :
    s.mem.readWord s.pc.toNat = some (s.mem.get s.pc.toNat ++ s.mem.get (s.pc.toNat + 1)) :=
  Memory.readWord_eq_some.mpr ⟨Nat.succ_lt_succ (Nat.lt_succ_of_le h), rfl⟩

theorem step_of_decodeWord_eq_some {i : Instr} (hw : s.mem.readWord s.pc.toNat = some w) (hi : decodeWord w = some i) :
    step s = exec i s.advance := by
  rw [step, fetchInstr_eq_ok.mpr ⟨w, hw, hi⟩]

theorem step_of_decodeWord_eq_none (hw : s.mem.readWord s.pc.toNat = some w) (hn : decodeWord w = none) :
    step s = .fault (.invalidOpcode w) := by
  simp only [step, fetchInstr, fetch_eq_ok.mpr hw, hn, raise]

theorem step_of_lt_pc (h : 4094 < s.pc.toNat) : step s = .fault (.pcOutOfBounds s.pc) := by
  have hnone : s.mem.readWord s.pc.toNat = none :=
    Option.eq_none_iff_forall_ne_some.mpr fun w hw => absurd (pc_le_of_readWord hw) (Nat.not_le.mpr h)
  simp only [step, fetchInstr, fetch, hnone, raise]

/-! ### From `step` to STEP(rnd) -/

/-- A fault raised for every random input is the fault of `step` and of STEP(rnd). -/
theorem fault_of_step (h : ∀ q, step { s with rndIn := q } = .fault f) :
    step s = .fault f ∧ ∀ rnd, perform (.step rnd) s = (takeFault f s, .fault f) :=
  ⟨h s.rndIn, fun rnd => hostStep_fault (stepWith_fault (h [rnd]))⟩

/-- A state that `step` answers itself for, whatever its random input, is a fixed point of STEP(rnd) too. -/
theorem fixedPoint_of_step (h : ∀ q, step { s with rndIn := q } = .next { s with rndIn := q }) :
    step s = .next s ∧ ∀ rnd, perform (.step rnd) s = (s, .ok) :=
  ⟨h s.rndIn, fun rnd => hostStep_next (t := s) (stepWith_next (t := { s with rndIn := [rnd] }) (h [rnd]))⟩

/-! ### The self-jump -/

/-- An address inside memory survives the cut to NNN and the extension back (R84). -/
theorem addrOperand_setWidth (h : w.toNat ≤ 4094) : addrOperand (w.setWidth 12) = w := by
  unfold addrOperand
  bv_omega

theorem readWord_of_selfJump (h : s.selfJump) : s.mem.readWord s.pc.toNat = some (addrWord 1#4 (s.pc.setWidth 12)) := by
  obtain ⟨hpc, hhi, hlo⟩ := h
  rw [readWord_of_pc_le hpc, hhi, hlo]
  refine congrArg some (BitVec.eq_of_toNat_eq ?_)
  rw [addrWord_toNat, toNat_append_eq, BitVec.toNat_ofNat, BitVec.toNat_ofNat, BitVec.toNat_setWidth,
    BitVec.toNat_ofNat]
  omega

theorem step_selfJump (h : s.selfJump) : step s = .next s := by
  have hjp : decodeWord (addrWord 1#4 (s.pc.setWidth 12)) = some (.jp (s.pc.setWidth 12)) :=
    decodeWord_addrWord fun _ _ _ _ => rfl
  rw [step_of_decodeWord_eq_some (readWord_of_selfJump h) hjp, exec_jp_next, addrOperand_setWidth h.1]
  rfl

/-! ### The key wait -/

theorem State.rewind_advance (s : State) : s.advance.rewind = s :=
  congrArg s.setPc (BitVec.add_sub_cancel s.pc 2#16)

theorem State.firstKey_eq_none_of_key (h : ∀ k : Fin 16, s.key[k.val] = false) : s.firstKey = none := by
  refine State.firstKey_eq_none.mpr fun k => ?_
  unfold State.keyDown
  split
  · next hk => exact h ⟨k, hk⟩
  · rfl

theorem step_keyWait {x : Fin 16} (hw : s.mem.readWord s.pc.toNat = some w) (hx : decodeWord w = some (.ldVxK x.val))
    (hkey : ∀ k : Fin 16, s.key[k.val] = false) : step s = .next s := by
  rw [step_of_decodeWord_eq_some hw hx, exec_ldVxK_next]
  exact ⟨x, rfl, .inr ⟨State.firstKey_eq_none_of_key (s := s.advance) hkey, s.rewind_advance.symm⟩⟩

end

/-- Settles O60: the jump goes back to the PC the fetch advanced from, and so does the rewind; neither reads the random
input. -/
theorem selfJumpAndKeyWaitAreFixedPoints : Obligations.SelfJumpAndKeyWaitAreFixedPoints := by
  constructor
  · intro s hjump
    exact fixedPoint_of_step fun q => step_selfJump (s := { s with rndIn := q }) hjump
  · intro s w x hw hx hkey
    exact fixedPoint_of_step fun q => step_keyWait (s := { s with rndIn := q }) hw hx hkey

/-- Settles O7: below 4095 both bytes are inside memory; above 4094 the fetch has no word, and its fault leaves the state
as it was. -/
theorem fetchReadsTwoBytesOrFaults : Obligations.FetchReadsTwoBytesOrFaults := by
  intro s
  constructor
  · intro hpc
    have hw := readWord_of_pc_le hpc
    obtain ⟨hi, lo, hbytes⟩ := Memory.readWord_eq_some_iff_bytes.mp hw
    exact ⟨_, hi, lo, fetch_eq_ok.mpr hw, hbytes⟩
  · intro hpc
    exact fault_of_step (s := s) fun q => step_of_lt_pc (s := { s with rndIn := q }) hpc

/-- Settles O8: the state the instruction runs at is the fetch advance. -/
theorem stepRunsTheDecodedInstruction : Obligations.StepRunsTheDecodedInstruction :=
  fun _ _ _ hw hi => step_of_decodeWord_eq_some hw hi

/-- Settles O9: the dispatch faults whatever the random input, and its fault leaves the fetch advance. -/
theorem invalidOpcodeChangesOnlyPc : Obligations.InvalidOpcodeChangesOnlyPc := by
  intro s w hw hn
  exact fault_of_step (s := s) fun q => step_of_decodeWord_eq_none (s := { s with rndIn := q }) hw hn

end Sys2Proof.Machine
end

/-! ## Register, arithmetic, shift and random instructions

Each writes one register, or a result and a flag after it (spec/41_alu.md). What either write leaves is said once for each
kind; an instruction is then its `next` lemma with the arithmetic of its operands. The random source is read and written
by CXNN alone (R132). -/
section
namespace Sys2Proof.Machine

open Sys2Proof.Statement

section
variable {s : State} {x : Fin 16} {b : Byte}

/-! ### One register written -/

theorem State.reg_setReg_self : (s.setReg x b).reg x = b := by rw [State.reg_setReg, if_pos rfl]

theorem sameRegsBut_setReg : SameRegsBut (· = x) s (s.setReg x b) := fun k hk => by
  rw [State.reg_setReg, if_neg (Ne.symm hk)]

theorem onlyRegs_setReg : OnlyRegs (· = x) s (s.setReg x b) :=
  ⟨sameRegsBut_setReg, rfl, rfl, fun _ => rfl, ⟨rfl, rfl⟩, ⟨rfl, rfl⟩, ⟨rfl, rfl⟩, rfl, rfl, rfl⟩

/-! ### A result and a flag written -/

theorem onlyRegs_setRegFlag {c : Bool} : OnlyRegs (fun k => k = x ∨ k = 15) s (s.setRegFlag x b c) := by
  refine ⟨fun k hk => ?_, rfl, rfl, fun _ => rfl, ⟨rfl, rfl⟩, ⟨rfl, rfl⟩, ⟨rfl, rfl⟩, rfl, rfl, rfl⟩
  obtain ⟨hx, hf⟩ := not_or.mp hk
  rw [State.reg_setRegFlag, if_neg (Ne.symm hf), if_neg (Ne.symm hx)]

/-- What an instruction that writes a result and a flag leaves (R120), the result given as a number and the flag as the
condition it stands for. With X = F the flag is what stays (D5). -/
theorem exists_next_of_setRegFlag {o : Host.Outcome State Fault Refusal} {c : Bool} {n : Nat} {p : Prop} [Decidable p]
    (ho : o = .next (s.setRegFlag x b c)) (hb : b.toNat = n) (hc : c = decide p) :
    ∃ t, o = .next t ∧ (x ≠ 15 → (t.reg x).toNat = n) ∧ t.reg 15 = (if p then 1#8 else 0#8) ∧
      OnlyRegs (fun k => k = x ∨ k = 15) s t := by
  refine ⟨_, ho, fun hx => ?_, ?_, onlyRegs_setRegFlag⟩
  · rw [State.reg_setRegFlag, if_neg (Ne.symm hx), if_pos rfl, hb]
  · rw [State.reg_setRegFlag, if_pos rfl, flagByte, hc]
    simp only [decide_eq_true_eq]

/-! ### The arithmetic of bytes -/

theorem toNat_sub_byte (a b : Byte) : (a - b).toNat = (a.toNat + 256 - b.toNat) % 256 := by
  have hb := b.isLt
  rw [BitVec.toNat_sub]
  omega

theorem toNat_ushiftRight_one (a : Byte) : (a >>> 1).toNat = a.toNat / 2 :=
  (BitVec.toNat_ushiftRight a 1).trans (Nat.shiftRight_one a.toNat)

theorem toNat_shiftLeft_one (a : Byte) : (a <<< 1).toNat = a.toNat * 2 % 256 := by
  rw [BitVec.toNat_shiftLeft, Nat.shiftLeft_eq]

theorem bitOutRight_eq (a : Byte) : bitOutRight a = decide (a.toNat % 2 = 1) := Nat.testBit_zero a.toNat

theorem bitOutLeft_eq (a : Byte) : bitOutLeft a = decide (128 ≤ a.toNat) :=
  (BitVec.msb_eq_getLsbD_last a).symm.trans (BitVec.msb_eq_decide a)

/-! ### The random byte -/

theorem State.randomByte_of_cons {r : Byte} {rest : List Byte} (h : s.rndIn = r :: rest) : s.randomByte = r := by
  rw [State.randomByte, h, List.headD_cons]

theorem State.randomByte_of_nil (h : s.rndIn = []) : s.randomByte = Config.randomByte s.draws := by
  rw [State.randomByte, h, List.headD_nil]

theorem exec_rnd_eq (s : State) (x : Fin 16) (nn : Byte) :
    exec (.rnd x.val nn) s = .next (s.drawn.setReg x (s.randomByte &&& nn)) := exec_rnd_next.mpr ⟨x, rfl, rfl⟩

end

/-! ### Who reads and writes the random source -/

/-- Of the kinds of update only `random` writes the random source. -/
theorem Effect.sameRandom {i : Instr} {s t : State} (hi : ¬isRandom i) (e : Effect i s t) : SameRandom s t := by
  cases e with
  | random _ _ _ hrnd => exact absurd hrnd hi
  | skip c => exact ⟨State.skipIf_rndIn s c, State.skipIf_draws s c⟩
  | setReg | setRegFlag | setRegs | display | draw | setI | setDt | setSt | store | rewind | jump | call | ret =>
    exact ⟨rfl, rfl⟩

/-- `s'` differs from `s` at most in the random source. -/
def SameButRandom (s s' : State) : Prop := s' = { s with rndIn := s'.rndIn, draws := s'.draws }

theorem sameButRandom_respected : Respected SameButRandom where
  operands h := by rw [SameOperands, h]
  setReg r b h := by rw [SameButRandom, h]; rfl
  setRegs bytes h := by rw [SameButRandom, h]; rfl
  setI w h := by rw [SameButRandom, h]; rfl
  setPc w h := by rw [SameButRandom, h]; rfl
  setDt b h := by rw [SameButRandom, h]; rfl
  setSt b h := by rw [SameButRandom, h]; rfl
  setMem m h := by rw [SameButRandom, h]; rfl
  display fb h := by rw [SameButRandom, h]; rfl
  drawn h := by rw [SameButRandom, h]; rfl
  push w h := by
    rw [h]
    dsimp only [State.push]
    split
    · exact .some rfl
    · exact .none
  pop h := by
    rw [h]
    dsimp only [State.pop]
    split
    · exact .none
    · exact .some ⟨rfl, rfl⟩

/-- Settles O19: changing the random source is a relation every instruction respects, and no update of another instruction
than CXNN writes it, on either side. -/
theorem onlyRandomReadsTheRandomInput : Obligations.OnlyRandomReadsTheRandomInput := by
  intro i s t q d hi h
  have hrel : SameButRandom s { s with rndIn := q, draws := d } := rfl
  have halike := sameButRandom_respected.exec_alike i hrel fun hrnd => absurd hrnd hi
  rw [h] at halike
  obtain ⟨t', ht', htt'⟩ := halike.of_next
  obtain ⟨hq, hd⟩ : t'.rndIn = q ∧ t'.draws = d := (exec_effect ht').sameRandom hi
  rw [SameButRandom, hq, hd] at htt'
  exact ⟨(exec_effect h).sameRandom hi, ht'.trans (congrArg _ htt')⟩

/-- Settles O11: the host's byte is the random input of the step, and what is left of that input is dropped. -/
theorem stepUsesTheHostsRandomByte : Obligations.StepUsesTheHostsRandomByte := by
  intro s w x nn rnd hw hx
  have hstep := (step_of_decodeWord_eq_some (s := { s with rndIn := [rnd] }) hw hx).trans (exec_rnd_eq _ x nn)
  exact ⟨_, hostStep_next (stepWith_next hstep), State.reg_setReg_self, rfl, rfl, sameRegsBut_setReg (s := s)⟩

/-- Settles O12: both write one register. -/
theorem loadsWriteTheOperand : Obligations.LoadsWriteTheOperand := by
  intro s x y nn
  constructor
  · exact ⟨_, exec_ldByte_next.mpr ⟨x, rfl, rfl⟩, State.reg_setReg_self, onlyRegs_setReg⟩
  · exact ⟨_, exec_ldReg_next.mpr ⟨x, y, rfl, rfl, rfl⟩, State.reg_setReg_self, onlyRegs_setReg⟩

/-- Settles O13: the sum of bytes is modulo 256, and one register is written. -/
theorem addImmediateWrapsWithoutFlag : Obligations.AddImmediateWrapsWithoutFlag := by
  intro s x nn
  refine ⟨_, exec_addByte_next.mpr ⟨x, rfl, rfl⟩, ?_, onlyRegs_setReg⟩
  rw [State.reg_setReg_self, BitVec.toNat_add]

/-- Settles O14: each operation acts on every bit alike, and one register is written. -/
theorem logicWritesOnlyTheResult : Obligations.LogicWritesOnlyTheResult := by
  intro s x y
  refine ⟨⟨_, exec_orReg_next.mpr ⟨x, y, rfl, rfl, rfl⟩, onlyRegs_setReg, fun b => ?_⟩,
    ⟨_, exec_andReg_next.mpr ⟨x, y, rfl, rfl, rfl⟩, onlyRegs_setReg, fun b => ?_⟩,
    ⟨_, exec_xorReg_next.mpr ⟨x, y, rfl, rfl, rfl⟩, onlyRegs_setReg, fun b => ?_⟩⟩
  · rw [State.reg_setReg_self, BitVec.getLsbD_or]
  · rw [State.reg_setReg_self, BitVec.getLsbD_and]
  · rw [State.reg_setReg_self, BitVec.getLsbD_xor]

/-- Settles O15: the result is the sum modulo 256 and the flag its carry. -/
theorem addSetsTheCarry : Obligations.AddSetsTheCarry := by
  intro s x y
  exact exists_next_of_setRegFlag (exec_addReg_next.mpr ⟨x, y, rfl, rfl, rfl⟩) (BitVec.toNat_add _ _) rfl

/-- Settles O16: the result is the difference modulo 256 and the flag its not-borrow, the operands in either order. -/
theorem subtractionsSetTheNotBorrow : Obligations.SubtractionsSetTheNotBorrow := by
  intro s x y
  constructor
  · exact exists_next_of_setRegFlag (exec_subReg_next.mpr ⟨x, y, rfl, rfl, rfl⟩) (toNat_sub_byte _ _) rfl
  · exact exists_next_of_setRegFlag (exec_subnReg_next.mpr ⟨x, y, rfl, rfl, rfl⟩) (toNat_sub_byte _ _) rfl

/-- Settles O17: the result is the half or the double and the flag the bit shifted out, for any Y field. -/
theorem shiftsPutTheLostBitInVF : Obligations.ShiftsPutTheLostBitInVF := by
  intro s x y
  constructor
  · exact exists_next_of_setRegFlag (exec_shr_next.mpr ⟨x, rfl, rfl⟩) (toNat_ushiftRight_one _) (bitOutRight_eq _)
  · exact exists_next_of_setRegFlag (exec_shl_next.mpr ⟨x, rfl, rfl⟩) (toNat_shiftLeft_one _) (bitOutLeft_eq _)

/-- Settles O18: the random byte is the head of the host's bytes or the free value, and the draw takes it away. -/
theorem randomIsTheMaskedByte : Obligations.RandomIsTheMaskedByte := by
  intro s x nn
  refine ⟨_, exec_rnd_eq s x nn, fun r rest h => ?_, fun h => ?_, fun b hb => ?_, rfl, sameRegsBut_setReg (s := s), rfl, rfl,
    fun _ => rfl, ⟨rfl, rfl⟩, ⟨rfl, rfl⟩, ⟨rfl, rfl⟩, rfl⟩
  · rw [State.reg_setReg_self, State.randomByte_of_cons h, State.setReg_rndIn, State.drawn_rndIn, h, List.tail_cons]
    exact ⟨rfl, rfl⟩
  · rw [State.reg_setReg_self, State.randomByte_of_nil h, State.setReg_rndIn, State.drawn_rndIn, h, List.tail_nil]
    exact ⟨rfl, rfl⟩
  · rw [State.reg_setReg_self, BitVec.getLsbD_and, hb, Bool.and_false]

end Sys2Proof.Machine
end

/-! ## Display

The cells that a draw XORs are the pixels of `spriteLit`, each listed once and all on the screen, so one lemma says what
DXYN leaves in every cell and another what it leaves in VF (R141 to R143). A second draw is the same lemma again. -/
section
namespace Sys2Proof.Machine

open Sys2Proof.Statement

section
variable {s : State} {x y : Fin 16} {n : Nibble} {k : Nat}

/-! ### The cells of a sprite -/

/-- Some bit c of some row r is lit and lands on k, the bytes read with no bounds check. -/
theorem State.mem_spriteAt : k ∈ s.spriteAt x y n ↔ ∃ r, r < n.toNat ∧
    k ∈ rowCells ((s.reg x).toNat % 64) ((s.reg y).toNat % 32 + r) (s.mem.get (s.i.toNat + r)) := by
  simp only [State.spriteAt, mem_spriteCells, List.length_map, List.length_range, List.getElem_map, List.getElem_range,
    exists_prop]

/-- When the sprite lies in memory its cells are the pixels the statements speak of. -/
theorem State.mem_spriteAt_iff_spriteLit (hin : n.toNat = 0 ∨ s.i.toNat + n.toNat ≤ 4096) :
    k ∈ s.spriteAt x y n ↔ spriteLit s x y n k := by
  rw [State.mem_spriteAt]
  constructor
  · rintro ⟨r, hr, hk⟩
    obtain ⟨hy, c, hc, hx, hlit, rfl⟩ := mem_rowCells.mp hk
    have hlt : s.i.toNat + r < 4096 := by omega
    exact ⟨r, c, _, hr, hc, Memory.read_eq_get hlt, hlit, Nat.lt_succ_iff.mp hy, Nat.lt_succ_iff.mp hx, rfl⟩
  · rintro ⟨r, c, b, hr, hc, hb, hlit, hy, hx, rfl⟩
    obtain ⟨-, rfl⟩ := Memory.read_eq_some_iff.mp hb
    exact ⟨r, hr, mem_rowCells.mpr ⟨Nat.lt_succ_of_le hy, c, hc, Nat.lt_succ_of_le hx, hlit, rfl⟩⟩

/-- The sprite's cells depend on the origin registers, I and memory alone (R141). -/
theorem State.spriteAt_congr {s' : State} (hx : s'.reg x = s.reg x) (hy : s'.reg y = s.reg y) (hi : s'.i = s.i)
    (hm : s'.mem = s.mem) : s'.spriteAt x y n = s.spriteAt x y n := by
  rw [State.spriteAt, hx, hy, hi, hm, State.spriteAt]

/-! ### What a draw leaves -/

theorem cell_draw_spriteAt (s : State) (x y : Fin 16) (n : Nibble) (k : Nat) :
    cell (s.draw (s.spriteAt x y n)).fb k = (cell s.fb k ^^ decide (k ∈ s.spriteAt x y n)) :=
  cell_plotAll s.fb State.spriteAt_lt (s.spriteAt_nodup x y n) k

theorem flag_draw_spriteAt (s : State) (x y : Fin 16) (n : Nibble) :
    (s.draw (s.spriteAt x y n)).reg 15 = flagByte ((s.spriteAt x y n).any (cell s.fb)) := by
  rw [State.reg_draw, if_pos rfl, collision_plotAll s.fb State.spriteAt_lt (s.spriteAt_nodup x y n)]

/-- A collision is a lit pixel on a cell that was on, in any row (R143, C5). -/
theorem any_spriteAt_iff (hin : n.toNat = 0 ∨ s.i.toNat + n.toNat ≤ 4096) :
    (s.spriteAt x y n).any (cell s.fb) = true ↔ ∃ k, spriteLit s x y n k ∧ cell s.fb k = true := by
  simp only [List.any_eq_true, State.mem_spriteAt_iff_spriteLit hin]

/-- Every change of the screen sets UPD, whether or not a cell changed (R144). -/
theorem upd_of_isDisplay {i : Instr} {t : State} (hd : isDisplay i) (h : exec i s = .next t) : t.upd = true := by
  cases i with
  | cls => rw [exec_cls_next.mp h, State.show_upd]
  | drw =>
    obtain ⟨r, q, -, -, -, rfl⟩ := exec_drw_next.mp h
    exact State.draw_upd s _
  | _ => cases hd

/-! ### The range at I -/

theorem exec_ldB_eq (s : State) (x : Fin 16) : exec (.ldB x.val) s = storeAtI s (bcdDigits (s.reg x)) := by
  rw [exec, execLdB, withReg_val]

theorem exec_storeRegs_eq (s : State) (x : Fin 16) : exec (.storeRegs x.val) s = storeAtI s (s.regBlock x.val) := by
  rw [exec, execStoreRegs, withReg_val]

theorem exec_loadRegs_eq (s : State) (x : Fin 16) :
    exec (.loadRegs x.val) s = withBytesAtI s (x.val + 1) fun bytes => .next (s.setRegs bytes) := by
  rw [exec, execLoadRegs, withReg_val]

end

/-- Settles O21: the cells drawn are the lit pixels, and a draw XORs each of them once. -/
theorem drawXorsTheSpriteOntoTheScreen : Obligations.DrawXorsTheSpriteOntoTheScreen := by
  intro s x y n hin
  refine ⟨s.draw (s.spriteAt x y n), exec_drw_next.mpr ⟨x, y, rfl, rfl, hin, rfl⟩, fun k _ => ?_, fun hc => ?_, fun hc => ?_,
    rfl, fun k hk => ?_, rfl, rfl, fun _ => rfl, ⟨rfl, rfl⟩, ⟨rfl, rfl⟩, rfl, rfl, rfl⟩
  · rw [cell_draw_spriteAt, Bool.xor_iff_ne, ne_eq, Bool.eq_iff_iff, decide_eq_true_iff,
      State.mem_spriteAt_iff_spriteLit hin]
  · rw [flag_draw_spriteAt, (any_spriteAt_iff hin).mpr hc, flagByte_true]
  · rw [flag_draw_spriteAt, Bool.eq_false_iff.mpr (mt (any_spriteAt_iff hin).mp hc), flagByte_false]
  · rw [State.reg_draw, if_neg (Ne.symm hk)]

/-- Settles O22: the second draw has the cells of the first, and an XOR done twice restores each of them. -/
theorem drawingTwiceRestoresTheScreen : Obligations.DrawingTwiceRestoresTheScreen := by
  intro s t s' x y n h hfb hx hy hi hm
  obtain ⟨r, q, hr, hq, hin, rfl⟩ := exec_drw_next.mp h
  cases Fin.ext hr
  cases Fin.ext hq
  refine ⟨_, exec_drw_next.mpr ⟨x, y, rfl, rfl, by rwa [hi], rfl⟩, fun k _ => ?_⟩
  rw [cell_draw_spriteAt, State.spriteAt_congr hx hy hi hm, hfb, cell_draw_spriteAt, Bool.xor_assoc, Bool.xor_self,
    Bool.xor_false]

/-- Settles O52: 00E0 and DXYN set UPD by their own update, and no other kind of update writes FB or UPD. -/
theorem onlyDisplayInstructionsTouchTheScreen : Obligations.OnlyDisplayInstructionsTouchTheScreen := by
  intro i s t h
  refine ⟨fun hd => upd_of_isDisplay hd h, fun hn => ?_⟩
  cases exec_effect h with
  | display _ hd | draw _ _ hd => exact absurd hd hn
  | skip c => exact ⟨State.skipIf_fb s c, State.skipIf_upd s c⟩
  | setReg | setRegFlag | setRegs | random | setI | setDt | setSt | store | rewind | jump | call | ret => exact ⟨rfl, rfl⟩

/-- Settles O20: the blank screen is shown, and nothing else is written. -/
theorem clearZeroesEveryCell : Obligations.ClearZeroesEveryCell := fun _ =>
  ⟨_, exec_cls_next.mpr rfl, fun k _ => cell_blankScreen k, rfl, fun _ => rfl, rfl, rfl, fun _ => rfl, ⟨rfl, rfl⟩, ⟨rfl, rfl⟩,
    rfl, rfl, rfl⟩

/-- Settles O33: each of the four checks the whole range at I before any effect. -/
theorem accessPastTheEndOfMemoryFaults : Obligations.AccessPastTheEndOfMemoryFaults := by
  intro s x y n
  refine ⟨fun hn h => ?_, fun h => ?_, fun h => ⟨?_, ?_⟩⟩
  · have hout : 4096 < s.i.toNat + n.toNat := by omega
    exact (execDrw_eq x y n s).trans (withBytesAtI_out hn hout _)
  · have hout : 4096 < s.i.toNat + 3 := Nat.add_lt_add_right h 3
    exact (exec_ldB_eq s x).trans (storeAtI_out hout)
  · have hout : 4096 < s.i.toNat + (s.regBlock x.val).length := by
      rw [State.length_regBlock]
      omega
    exact (exec_storeRegs_eq s x).trans (storeAtI_out hout)
  · have hout : 4096 < s.i.toNat + (x.val + 1) := Nat.succ_lt_succ h
    exact (exec_loadRegs_eq s x).trans (withBytesAtI_out (Nat.succ_ne_zero x.val) hout _)

end Sys2Proof.Machine
end

/-! ## Control transfer

A jump is `setPc` and a skip is `skipIf`, and what either leaves unchanged is said once. A call and a return are their
`next` lemmas where the stack has room or an address, and the faults of push and pop where it has not (R32, R33). -/
section
namespace Sys2Proof.Machine

open Sys2Proof.Statement

section
variable {s : State} {nnn : Addr12} {x : Fin 16}

/-! ### Only PC written -/

theorem onlyPc_setPc {w : Word} : OnlyPc s (s.setPc w) :=
  ⟨fun _ => rfl, rfl, fun _ => rfl, ⟨rfl, rfl⟩, ⟨rfl, rfl⟩, ⟨rfl, rfl⟩, rfl, rfl, rfl⟩

/-- A skip that is not taken writes nothing at all. -/
theorem onlyPc_skipIf (c : Bool) : OnlyPc s (s.skipIf c) := by
  cases c with
  | false => exact onlyPc_setPc (w := s.pc)
  | true => exact onlyPc_setPc (w := s.pc + 2#16)

/-- What a skip leaves (R154), its test given as the condition it stands for. -/
theorem exists_next_of_skipIf {o : Host.Outcome State Fault Refusal} {c : Bool} {p : Prop} [Decidable p]
    (ho : o = .next (s.skipIf c)) (hc : c = true ↔ p) :
    ∃ t, o = .next t ∧ t.pc = (if p then s.pc + 2#16 else s.pc) ∧ OnlyPc s t := by
  refine ⟨_, ho, ?_, onlyPc_skipIf c⟩
  rw [State.skipIf_pc]
  exact if_congr hc rfl rfl

/-! ### Jump targets -/

theorem toNat_addrOperand (nnn : Addr12) : (addrOperand nnn).toNat = nnn.toNat :=
  BitVec.toNat_setWidth_of_le (by decide)

theorem toNat_wide (b : Byte) : (wide b).toNat = b.toNat := BitVec.toNat_setWidth_of_le (by decide)

/-- The sum of BNNN as 16-bit addition leaves it (R27, R153). -/
theorem toNat_addrOperand_add_wide_mod (nnn : Addr12) (b : Byte) :
    (addrOperand nnn + wide b).toNat = (nnn.toNat + b.toNat) % 65536 := by
  rw [BitVec.toNat_add, toNat_addrOperand, toNat_wide]

/-- The largest target, 0xFFF + 0xFF, has 13 bits: the sum of BNNN does not wrap (R153). -/
theorem toNat_addrOperand_add_wide (nnn : Addr12) (b : Byte) :
    (addrOperand nnn + wide b).toNat = nnn.toNat + b.toNat := by
  have hn := nnn.isLt
  have hb := b.isLt
  rw [toNat_addrOperand_add_wide_mod]
  omega

/-! ### The polled key -/

theorem State.keyDown_val (s : State) (k : Fin 16) : s.keyDown k.val = s.key[k.val] := dif_pos k.isLt

theorem exec_skp_gt (h : 15 < (s.reg x).toNat) : exec (.skp x.val) s = .fault (.invalidKey (s.reg x)) := by
  rw [exec, execSkp, withReg_val, withKey_gt h]

theorem exec_sknp_gt (h : 15 < (s.reg x).toNat) : exec (.sknp x.val) s = .fault (.invalidKey (s.reg x)) := by
  rw [exec, execSknp, withReg_val, withKey_gt h]

/-! ### A full and an empty stack -/

theorem exec_call_of_full (h : s.sp.val = 16) : exec (.call nnn) s = .fault .stackOverflow := by
  simp only [exec, execCall, State.push_eq_none.mpr h, raise]

theorem exec_ret_of_empty (h : s.sp.val = 0) : exec .ret s = .fault .stackUnderflow := by
  simp only [exec, execRet, State.pop_eq_none.mpr h, raise]

end

/-- Settles O23: both set PC alone, and the sum of BNNN is below 65536. -/
theorem jumpsSetPc : Obligations.JumpsSetPc := by
  intro s nnn
  constructor
  · exact ⟨_, exec_jp_next.mpr rfl, toNat_addrOperand nnn, onlyPc_setPc⟩
  · exact ⟨_, exec_jpV0_next.mpr rfl, toNat_addrOperand_add_wide_mod nnn _, toNat_addrOperand_add_wide nnn _, onlyPc_setPc⟩

/-- Settles O24: the test of each skip is its condition. -/
theorem skipsAddTwoWhenTheConditionHolds : Obligations.SkipsAddTwoWhenTheConditionHolds := by
  intro s x y nn
  refine ⟨?_, ?_, ?_, ?_⟩
  · exact exists_next_of_skipIf (exec_seByte_next.mpr ⟨x, rfl, rfl⟩) beq_iff_eq
  · exact exists_next_of_skipIf (exec_sneByte_next.mpr ⟨x, rfl, rfl⟩) bne_iff_ne
  · exact exists_next_of_skipIf (exec_seReg_next.mpr ⟨x, y, rfl, rfl, rfl⟩) beq_iff_eq
  · exact exists_next_of_skipIf (exec_sneReg_next.mpr ⟨x, y, rfl, rfl, rfl⟩) bne_iff_ne

/-- Settles O25: a value up to 15 is the number of the key that is polled; above that the key operand faults. -/
theorem keySkipsPollTheKey : Obligations.KeySkipsPollTheKey := by
  intro s x
  refine ⟨fun k hk => ?_, fun h => ⟨exec_skp_gt h, exec_sknp_gt h⟩⟩
  have hle : (s.reg x).toNat ≤ 15 := by omega
  have hkey : s.keyDown (s.reg x).toNat = s.key[k.val] := by rw [← hk, State.keyDown_val]
  constructor
  · exact exists_next_of_skipIf (exec_skp_next.mpr ⟨x, rfl, hle, rfl⟩) (by rw [hkey])
  · exact exists_next_of_skipIf (exec_sknp_next.mpr ⟨x, rfl, hle, rfl⟩) (by rw [hkey, Bool.not_eq_true'])

/-- Settles O26: with room the push sets the slot at SP; a full stack has none. -/
theorem callPushesTheReturnAddress : Obligations.CallPushesTheReturnAddress := by
  intro s nnn
  refine ⟨fun h => ⟨_, exec_call_next.mpr ⟨h, rfl⟩, toNat_addrOperand nnn, rfl, fun k => ?_, ?_⟩, exec_call_of_full⟩
  · exact (Vector.getElem_set h k.isLt).trans (if_congr eq_comm rfl rfl)
  · exact ⟨fun _ => rfl, rfl, fun _ => rfl, ⟨rfl, rfl⟩, ⟨rfl, rfl⟩, rfl, rfl, rfl⟩

/-- Settles O27: the pop reads the slot below SP and writes SP alone; an empty stack has no such slot. -/
theorem returnPopsIntoPc : Obligations.ReturnPopsIntoPc := by
  intro s
  refine ⟨fun h => ?_, exec_ret_of_empty⟩
  have htop : s.sp.val - 1 < 16 := by omega
  refine ⟨_, exec_ret_next.mpr ⟨h, htop, rfl⟩, rfl, rfl, fun k hk => ?_, ?_⟩
  · simp only [hk]
  · exact ⟨fun _ => rfl, rfl, fun _ => rfl, ⟨rfl, rfl⟩, ⟨rfl, rfl⟩, rfl, rfl, rfl⟩

/-- Settles O28: the slot that the return reads is the one that the call set, and the live slots are the others. -/
theorem returnUndoesCall : Obligations.ReturnUndoesCall := by
  intro s t u nnn hcall husp hustack
  obtain ⟨hroom, rfl⟩ := exec_call_next.mp hcall
  have hsp : u.sp.val = s.sp.val + 1 := congrArg Fin.val husp
  obtain ⟨w, hret, hwsp, hwstack, hwpc, -⟩ := (returnPopsIntoPc u).1 (by omega)
  refine ⟨w, hret, ?_, Fin.ext (by omega), fun k hk => ?_⟩
  · have htop : w.pc = u.stack[s.sp.val] := hwpc ⟨s.sp.val, hroom⟩ (by dsimp only; omega)
    simp only [htop, hustack, Vector.getElem_set_self]
  · simp only [hwstack, hustack, Vector.getElem_set_ne _ _ (Nat.ne_of_gt hk)]

end Sys2Proof.Machine
end

/-! ## Index register and memory

What a write of I, a store at I and a block load leave unchanged is said once each. A store is then read back byte by byte
with `Memory.read_putAll`; a load after a store is the two instructions' own statements put together. -/
section
namespace Sys2Proof.Machine

open Sys2Proof.Statement

section
variable {s : State}

/-! ### Only I written -/

theorem onlyIndex_setI {w : Word} : OnlyIndex s (s.setI w) :=
  ⟨fun _ => rfl, rfl, fun _ => rfl, ⟨rfl, rfl⟩, ⟨rfl, rfl⟩, ⟨rfl, rfl⟩, rfl, rfl, rfl⟩

/-- The sum of FX1E as 16-bit addition leaves it (R171). -/
theorem toNat_add_wide_mod (w : Word) (b : Byte) : (w + wide b).toNat = (w.toNat + b.toNat) % 65536 := by
  rw [BitVec.toNat_add, toNat_wide]

/-- The largest address of FX29, 0x050 + 5 · 0xFF, has 11 bits: it does not wrap (R172). -/
theorem toNat_fontAddress (b : Byte) :
    (BitVec.ofNat 16 Config.fontBase + 5#16 * wide b).toNat = 0x050 + 5 * b.toNat := by
  have hb := b.isLt
  have hbase : Config.fontBase = 0x050 := rfl
  rw [BitVec.toNat_add, BitVec.toNat_mul, toNat_wide, BitVec.toNat_ofNat, BitVec.toNat_ofNat, hbase]
  omega

/-! ### A store at I -/

theorem Memory.read_putAll_add {m : Memory} {a k : Nat} {bytes : List Byte} (h : m.sorted)
    (ha : a + bytes.length ≤ Config.memSize) (hk : k < bytes.length) : (m.putAll a bytes).read (a + k) = some bytes[k] := by
  have hin : a ≤ a + k ∧ a + k < a + bytes.length := by omega
  rw [Memory.read_putAll h ha, if_pos hin, Nat.add_sub_cancel_left, List.getElem?_eq_getElem hk]

theorem onlyMemory_putAll {start n : Nat} {bytes : List Byte} (h : s.mem.sorted) (hn : bytes.length = n) :
    OnlyMemory start n s (s.setMem (s.mem.putAll start bytes)) := by
  refine ⟨fun _ => rfl, rfl, rfl, fun a ha => ?_, ⟨rfl, rfl⟩, ⟨rfl, rfl⟩, ⟨rfl, rfl⟩, rfl, rfl, rfl⟩
  have hout : ¬(start ≤ a ∧ a < start + bytes.length) := by omega
  exact Memory.read_congr (by rw [State.setMem_mem, Memory.get_putAll _ _ _ _ h, if_neg hout])

theorem State.length_regBlock_val (x : Fin 16) : (s.regBlock x.val).length = x.val + 1 := by
  rw [State.length_regBlock, Nat.min_eq_left x.isLt]

/-! ### A block load -/

theorem State.reg_setRegs_map {f : Nat → Byte} {n : Nat} {k : Fin 16} (hk : k.val < n) :
    (s.setRegs ((List.range n).map f)).reg k = f k.val := by
  simp [State.reg_setRegs, hk]

theorem onlyRegs_setRegs {p : Fin 16 → Prop} {bytes : List Byte} (hp : ∀ k, k.val < bytes.length → p k) :
    OnlyRegs p s (s.setRegs bytes) := by
  refine ⟨fun k hk => ?_, rfl, rfl, fun _ => rfl, ⟨rfl, rfl⟩, ⟨rfl, rfl⟩, ⟨rfl, rfl⟩, rfl, rfl, rfl⟩
  rw [State.reg_setRegs, if_neg (mt (hp k) hk)]

end

/-- Settles O30: the three digits lie inside memory, and each is read back where it was put. -/
theorem bcdStoresThreeDigits : Obligations.BcdStoresThreeDigits := by
  intro s x h hi
  have hin : s.i.toNat + 3 ≤ 4096 := Nat.succ_le_succ hi
  have hread {k : Nat} (hk : k < 3) := Memory.read_putAll_add (bytes := bcdDigits (s.reg x)) h.sorted hin hk
  exact ⟨_, exec_ldB_next.mpr ⟨x, rfl, hin, rfl⟩, hread (k := 0) (by decide), hread (k := 1) (by decide),
    hread (k := 2) (by decide), onlyMemory_putAll h.sorted rfl⟩

/-- Settles O31: the block has X + 1 bytes, and the k-th is V[k]. -/
theorem blockStoreCopiesRegisters : Obligations.BlockStoreCopiesRegisters := by
  intro s x h hi
  refine ⟨_, exec_storeRegs_next.mpr ⟨x, rfl, Nat.succ_le_succ hi, rfl⟩, fun k hk => ?_,
    onlyMemory_putAll h.sorted (State.length_regBlock_val x)⟩
  have hlt : s.i.toNat + k.val < 4096 := by omega
  exact Memory.read_eq_some_iff.mpr ⟨hlt, get_putAll_regBlock h.sorted _ hk⟩

/-- Settles O32: the block has X + 1 bytes, and V[k] takes the k-th, which lies inside memory. -/
theorem blockLoadCopiesMemory : Obligations.BlockLoadCopiesMemory := by
  intro s x hi
  refine ⟨_, exec_loadRegs_next.mpr ⟨x, rfl, Nat.succ_le_succ hi, rfl⟩, fun k hk => ?_, onlyRegs_setRegs fun k hk => ?_⟩
  · have hlt : s.i.toNat + k.val < 4096 := by omega
    rw [State.reg_setRegs_map (Nat.lt_succ_of_le hk), Memory.read_eq_get hlt]
  · rw [List.length_map, List.length_range] at hk
    exact Nat.le_of_lt_succ hk

/-- Settles O34: the bytes that the load takes (O32) are those that the store left at the same I (O31). -/
theorem blockLoadUndoesBlockStore : Obligations.BlockLoadUndoesBlockStore := by
  intro s t u x h hstore hmem hi
  obtain ⟨r, hr, hin, -⟩ := exec_storeRegs_next.mp hstore
  have hle : s.i.toNat + x.val ≤ 4095 := by omega
  obtain ⟨t', ht', hstored, -, hti, -⟩ := blockStoreCopiesRegisters s x h hle
  cases next_inj_iff.mp (hstore.symm.trans ht')
  rw [hti] at hi
  obtain ⟨w, hw, hloaded, -⟩ := blockLoadCopiesMemory u x (by rwa [hi])
  refine ⟨w, hw, fun k hk => Option.some.inj ?_⟩
  rw [← hloaded k hk, hmem, hi, hstored k hk]

/-- Settles O29: each sets I alone, and neither NNN nor the address of FX29 is cut by the 16 bits of I. -/
theorem indexInstructionsSetI : Obligations.IndexInstructionsSetI := by
  intro s x nnn
  refine ⟨?_, ?_, ?_⟩
  · exact ⟨_, exec_ldI_next.mpr rfl, toNat_addrOperand nnn, onlyIndex_setI⟩
  · exact ⟨_, exec_addI_next.mpr ⟨x, rfl, rfl⟩, toNat_add_wide_mod s.i _, onlyIndex_setI⟩
  · exact ⟨_, exec_ldF_next.mpr ⟨x, rfl, rfl⟩, toNat_fontAddress _, onlyIndex_setI⟩

end Sys2Proof.Machine
end

/-! ## Timers and key wait

A timer write is `setDt` or `setSt`, and what either leaves unchanged is said once. The key that FX0A takes is the first
one pressed, named here by a `Fin 16` as the keypad is; its number fits in a byte. -/
section
namespace Sys2Proof.Machine

open Sys2Proof.Statement

section
variable {s : State} {b : Byte}

/-! ### Only a timer written -/

theorem onlyTimers_setDt : OnlyTimers s (s.setDt b) :=
  ⟨fun _ => rfl, rfl, rfl, fun _ => rfl, ⟨rfl, rfl⟩, ⟨rfl, rfl⟩, rfl, rfl, rfl⟩

theorem onlyTimers_setSt : OnlyTimers s (s.setSt b) :=
  ⟨fun _ => rfl, rfl, rfl, fun _ => rfl, ⟨rfl, rfl⟩, ⟨rfl, rfl⟩, rfl, rfl, rfl⟩

/-- The beep is computed from ST when it is read, so it follows a write of ST at once (R182, R198). -/
theorem perform_readBeep_setSt : perform .readBeep (s.setSt b) = (s.setSt b, .flag (decide (0 < b.toNat))) := by
  rw [perform, beep, State.setSt_st]

/-! ### The key taken -/

theorem State.firstKey_eq_some_of_key {k : Fin 16} (hk : s.key[k.val] = true)
    (hlow : ∀ j : Fin 16, j < k → s.key[j.val] = false) : s.firstKey = some k.val := by
  refine State.firstKey_eq_some.mpr ⟨k.isLt, (State.keyDown_val s k).trans hk, fun j hj => ?_⟩
  exact (State.keyDown_val s ⟨j, hj.trans k.isLt⟩).trans (hlow ⟨j, hj.trans k.isLt⟩ hj)

theorem toNat_keyByte (k : Fin 16) : (BitVec.ofNat 8 k.val).toNat = k.val :=
  (BitVec.toNat_ofNat k.val 8).trans (Nat.mod_eq_of_lt (k.isLt.trans (by decide)))

end

/-- Settles O36: each writes its own timer alone, and the beep is read from the ST just written. -/
theorem timerWritesSetTheTimer : Obligations.TimerWritesSetTheTimer := by
  intro s x
  constructor
  · exact ⟨_, exec_ldDtVx_next.mpr ⟨x, rfl, rfl⟩, rfl, rfl, onlyTimers_setDt⟩
  · exact ⟨_, exec_ldStVx_next.mpr ⟨x, rfl, rfl⟩, rfl, rfl, perform_readBeep_setSt, onlyTimers_setSt⟩

/-- Settles O37: DT is the byte written to V[X], and the write of a register leaves DT alone. -/
theorem timerReadCopiesDt : Obligations.TimerReadCopiesDt := by
  intro s x
  exact ⟨_, exec_ldVxDt_next.mpr ⟨x, rfl, rfl⟩, State.reg_setReg_self, onlyRegs_setReg⟩

/-- Settles O38: the first key is the lowest one pressed, written to V[X] alone; with no first key PC is taken back. -/
theorem keyWaitTakesTheLowestKey : Obligations.KeyWaitTakesTheLowestKey := by
  intro s x
  refine ⟨fun k hk hlow => ?_, fun hnone => ?_⟩
  · have hfirst := State.firstKey_eq_some_of_key hk hlow
    refine ⟨_, exec_ldVxK_next.mpr ⟨x, rfl, .inl ⟨k.val, hfirst, rfl⟩⟩, ?_, onlyRegs_setReg⟩
    rw [State.reg_setReg_self, toNat_keyByte]
  · exact exec_ldVxK_next.mpr ⟨x, rfl, .inr ⟨State.firstKey_eq_none_of_key hnone, rfl⟩⟩

end Sys2Proof.Machine
end

/-! ## The host interface

What TICK and a key event leave unchanged is said once each, and so is what a key event leaves in every KEY[j], whatever
its index. LOAD_ROM by the bound on its length, and the list READ_FB answers cell by cell. -/
section
namespace Sys2Proof.Machine

open Sys2Proof.Statement

section
variable {s t : State}

/-! ### TICK -/

theorem onlyTimers_tick : OnlyTimers s (tick s) :=
  ⟨fun _ => rfl, rfl, rfl, fun _ => rfl, ⟨rfl, rfl⟩, ⟨rfl, rfl⟩, rfl, rfl, rfl⟩

theorem perform_tick : perform .tick s = (tick s, .ok) := rfl

/-- No instruction ticks: of the kinds of update only `setDt` writes DT and only `setSt` writes ST (R192). -/
theorem exec_keeps_timers {i : Instr} (h : exec i s = .next t) :
    (t.dt = s.dt ∨ ∃ x, i = .ldDtVx x) ∧ (t.st = s.st ∨ ∃ x, i = .ldStVx x) := by
  cases exec_effect h with
  | setDt b hi => exact ⟨.inr hi, .inl rfl⟩
  | setSt b hi => exact ⟨.inl rfl, .inr hi⟩
  | skip c => exact ⟨.inl (State.skipIf_dt s c), .inl (State.skipIf_st s c)⟩
  | setReg | setRegFlag | setRegs | random | display | draw | setI | store | rewind | jump | call | ret =>
    exact ⟨.inl rfl, .inl rfl⟩

/-! ### Key events -/

theorem perform_keyPress {k : Int} : perform (.keyPress k) s = (setKey k true s, .ok) := rfl

theorem perform_keyRelease {k : Int} : perform (.keyRelease k) s = (setKey k false s, .ok) := rfl

theorem onlyKeys_withKey {key : Vector Bool 16} : OnlyKeys s { s with key := key } :=
  ⟨fun _ => rfl, rfl, rfl, fun _ => rfl, ⟨rfl, rfl⟩, ⟨rfl, rfl⟩, ⟨rfl, rfl⟩, rfl, rfl⟩

theorem onlyKeys_setKey {k : Int} {b : Bool} : OnlyKeys s (setKey k b s) := by
  by_cases hk : 0 ≤ k ∧ k < 16
  · rw [setKey_in b s hk]
    exact onlyKeys_withKey
  · rw [setKey_out b s hk]
    exact onlyKeys_withKey (key := s.key)

/-- What a key event leaves in every KEY[j]; an index outside 0..15 is no j (R193, R194). -/
theorem key_setKey {k : Int} {b : Bool} (j : Fin 16) :
    (setKey k b s).key[j.val] = if (j.val : Int) = k then b else s.key[j.val] := by
  by_cases hk : 0 ≤ k ∧ k < 16
  · have hj : k.toNat = j.val ↔ (j.val : Int) = k := by omega
    simp only [setKey_in b s hk, Vector.getElem_setIfInBounds, hj]
  · have hj : ¬(j.val : Int) = k := by omega
    simp only [setKey_out b s hk, if_neg hj]

/-! ### LOAD_ROM -/

variable {bytes : List Byte}

theorem loadRom_of_le (h : bytes.length ≤ 3584) : loadRom bytes s = (s.setMem (s.mem.putAll 0x200 bytes), .ok) := by
  have hfits : 0x200 + bytes.length ≤ 4096 := by omega
  have hw : s.mem.writeRange bytes Config.progStart = some (s.mem.putAll 0x200 bytes) :=
    Memory.writeRange_eq_some.mpr ⟨hfits, rfl⟩
  simp only [loadRom, hw]

theorem loadRom_of_gt (h : 3584 < bytes.length) : loadRom bytes s = (s, .romTooLarge) := by
  have hbig : 4096 < 0x200 + bytes.length := by omega
  have hw : s.mem.writeRange bytes Config.progStart = none := Memory.writeRange_eq_none.mpr hbig
  simp only [loadRom, hw]

/-! ### READ_FB -/

theorem length_readFb : (readFb s).length = 2048 := by rw [readFb, List.length_map, List.length_range]

theorem getElem?_readFb {k : Nat} (hk : k < 2048) : (readFb s)[k]? = some (cell s.fb k) := by
  rw [readFb, List.getElem?_map, List.getElem?_range hk, Option.map_some]

end

/-- Settles O41: TICK counts each timer down, and no instruction's update but the two timer writes touches a timer. -/
theorem tickCountsDownAndStepNeverTicks : Obligations.TickCountsDownAndStepNeverTicks :=
  ⟨fun s => ⟨tick s, perform_tick, toNat_countDown s.dt, toNat_countDown s.st, onlyTimers_tick⟩,
    fun _ _ _ h => exec_keeps_timers h⟩

/-- Settles O43: up to 3584 bytes the range ends inside memory and each byte is read back where it was put; a longer one
is refused whole. -/
theorem loadRomWritesWholeOrNothing : Obligations.LoadRomWritesWholeOrNothing := by
  intro s bytes h
  refine ⟨fun hle => ⟨_, loadRom_of_le hle, fun k hk => ?_, onlyMemory_putAll h.sorted rfl⟩, loadRom_of_gt⟩
  have hfits : 0x200 + bytes.length ≤ 4096 := by omega
  rw [List.getElem?_eq_getElem hk]
  exact Memory.read_putAll_add h.sorted hfits hk

/-- Settles O42: an index in 0..15 writes its own key alone, and any other is ignored. -/
theorem keyEventsSetOneKey : Obligations.KeyEventsSetOneKey := by
  intro s k
  refine ⟨fun _ => ⟨?_, ?_⟩, fun hout => ?_⟩
  · exact ⟨_, perform_keyPress, onlyKeys_setKey, key_setKey⟩
  · exact ⟨_, perform_keyRelease, onlyKeys_setKey, key_setKey⟩
  · have hk : ¬(0 ≤ k ∧ k < 16) := by omega
    rw [perform_keyPress, perform_keyRelease, setKey_out true s hk, setKey_out false s hk]
    exact ⟨rfl, rfl⟩

/-- Settles O44: each observation answers beside the state it was given, and cell (x, y) stands at place 64 · y + x. -/
theorem observationsHaveNoEffect : Obligations.ObservationsHaveNoEffect := by
  intro s
  refine ⟨rfl, rfl, ⟨readFb s, rfl, length_readFb, fun x y hx hy => ?_⟩, rfl, rfl, rfl⟩
  have hk : y * 64 + x < 2048 := by omega
  exact getElem?_readFb hk

end Sys2Proof.Machine
end

/-! ## Faults as they are reported

The list of the causes of a fault (`exec_fault`), read for a well-formed instruction, whose register operands are all in
range; the state a STEP leaves at a fault, by whether the fetch had a word; and what the ports of R203 show of it. -/
section
namespace Sys2Proof.Machine

section
variable {s t : State} {f : Fault} {rnd : Byte}

/-! ### The bytes at I -/

/-- The four instructions that use bytes at I (R68), their registers in range. -/
theorem instr_of_bytesAtI_ne_zero {i : Instr} (hwf : i.wellFormed = true) (h : bytesAtI i ≠ 0) :
    (∃ (x y : Fin 16) (n : Nibble), i = .drw x.val y.val n) ∨ (∃ x : Fin 16, i = .ldB x.val) ∨
      ∃ x : Fin 16, i = .storeRegs x.val ∨ i = .loadRegs x.val := by
  cases i with
  | drw x y n =>
    obtain ⟨hx, hy⟩ := Bool.and_eq_true_iff.mp hwf
    exact .inl ⟨⟨x, of_decide_eq_true hx⟩, ⟨y, of_decide_eq_true hy⟩, n, rfl⟩
  | ldB x => exact .inr (.inl ⟨⟨x, of_decide_eq_true hwf⟩, rfl⟩)
  | storeRegs x => exact .inr (.inr ⟨⟨x, of_decide_eq_true hwf⟩, .inl rfl⟩)
  | loadRegs x => exact .inr (.inr ⟨⟨x, of_decide_eq_true hwf⟩, .inr rfl⟩)
  | _ => exact absurd rfl h

/-! ### The state after a fault -/

/-- Only the fetch raises PcOutOfBounds, and only where there is no word at PC (R101). -/
theorem ne_pcOutOfBounds_of_step_fault (h : step s = .fault f) (hpc : s.pc.toNat ≤ 4094) (w : Word) :
    f ≠ .pcOutOfBounds w := by
  rintro rfl
  obtain ⟨hlt, -⟩ | ⟨_, -, ⟨-, hf⟩ | ⟨i, -, hexec⟩⟩ := step_fault h
  · omega
  · cases hf
  · cases exec_fault hexec

/-- Every fault but that of the fetch leaves the fetch advance (D7). -/
theorem takeFault_of_ne_pcOutOfBounds (h : ∀ w, f ≠ .pcOutOfBounds w) : takeFault f s = s.advance := by
  obtain ⟨w, hf, -⟩ | hadvance := takeFault_cases f s
  · exact absurd hf (h w)
  · exact hadvance

/-- A fault that a STEP reports is that of a plain step with the host's byte as its random input. -/
theorem fault_of_perform_step (h : perform (.step rnd) s = (t, .fault f)) :
    step { s with rndIn := [rnd] } = .fault f ∧ t = takeFault f s := by
  obtain ⟨_, -, -, hr⟩ | ⟨g, hstep, ht, hr⟩ | ⟨_, -, -, hr⟩ := hostStep_cases h
  · cases hr
  · cases hr
    exact ⟨hstep, ht⟩
  · cases hr

/-! ### The fault ports -/

/-- The fault port has four bits (R203), and every code fits. -/
theorem faultCode_lt (f : Fault) : faultCode f < 16 := by
  unfold faultCode
  split <;> decide

theorem toNat_portView_fault : (portView s (.fault f)).fault.toNat = faultCode f :=
  (BitVec.toNat_ofNat _ _).trans (Nat.mod_eq_of_lt (faultCode_lt f))

theorem portView_faultInfo : (portView s (.fault f)).faultInfo = faultInfo f := rfl

/-- Operation 1 of the ports is STEP with the byte of the port `rnd` (R203). -/
theorem serve_step {k : Byte} {len : BitVec 13} {rom : Nat → Byte} {last : HostResult} :
    serve { op := 1, keyIdx := k, rnd := rnd, romLen := len, romData := rom } s last = hostStep rnd s := rfl

end

/-- Settles O57: a well-formed instruction has no bad register, and each other cause is a clause of the list; the range of
`n` bytes at I ends at I + n - 1. -/
theorem faultsAreRaisedOnlyAsListed : Obligations.FaultsAreRaisedOnlyAsListed := by
  intro i s f hwf h
  cases exec_fault h with
  | register _ hbad => cases (badRegister_of_wellFormed hwf).symm.trans hbad
  | key r hi hkey => exact .inl ⟨r, hi, hkey, rfl⟩
  | index hn hb =>
    obtain ⟨x, y, n, rfl⟩ | ⟨x, rfl⟩ | ⟨x, hi⟩ := instr_of_bytesAtI_ne_zero hwf hn
    · simp only [bytesAtI] at hn hb
      exact .inr (.inl ⟨x, y, n, rfl, hn, by omega, rfl⟩)
    · simp only [bytesAtI] at hb
      exact .inr (.inr (.inl ⟨x, rfl, by omega, rfl⟩))
    · have hbytes : bytesAtI i = x.val + 1 := by obtain rfl | rfl := hi <;> rfl
      exact .inr (.inr (.inr (.inl ⟨x, hi, by omega, rfl⟩)))
  | overflow nnn hi hsp => exact .inr (.inr (.inr (.inr (.inl ⟨⟨nnn, hi⟩, hsp, rfl⟩))))
  | underflow hi hsp => exact .inr (.inr (.inr (.inr (.inr ⟨hi, hsp, rfl⟩))))

/-- Settles O10: above 4094 the step is the fetch's fault; from any other PC the fault is not the fetch's, and such a fault
leaves the fetch advance. -/
theorem faultingStepLeavesOnlyPcAdvanced : Obligations.FaultingStepLeavesOnlyPcAdvanced := by
  intro s t rnd f h
  obtain ⟨hstep, rfl⟩ := fault_of_perform_step h
  constructor
  · intro hpc
    cases hstep.symm.trans (step_of_lt_pc (s := { s with rndIn := [rnd] }) hpc)
    exact ⟨rfl, rfl⟩
  · intro hpc
    have hne := ne_pcOutOfBounds_of_step_fault hstep hpc
    exact ⟨hne, takeFault_of_ne_pcOutOfBounds hne⟩

/-- Settles O47: the ports show the result of the STEP that operation 1 performs, and a code fits the port. -/
theorem portsReportTheFault : Obligations.PortsReportTheFault := by
  constructor
  · intro s k rnd len rom last f h
    rw [serve_step, hostStep_fault h]
    exact ⟨toNat_portView_fault, portView_faultInfo⟩
  · intro n b w
    exact ⟨rfl, congrArg (Prod.mk 2) (toNat_wide b), rfl, rfl, rfl, rfl, rfl, rfl⟩

end Sys2Proof.Machine
end

/-! ## Reset

What construction and RESET leave, piece by piece. The model writes the reset content of memory once, as what an unlisted
address reads as; the font table it looks up there is R62's. -/
section
namespace Sys2Proof.Machine

open Sys2Proof.Statement

/-! ### Memory after reset -/

/-- The model's font is R62's table. -/
theorem font_eq_glyphBytes : font = glyphBytes := rfl

theorem length_glyphBytes : glyphBytes.length = 80 := rfl

/-- The reset content of an address: the font lies at 0x050..0x09F, and all else is zero (R61, R240). -/
theorem Memory.some_unlisted (a : Nat) :
    some (Memory.unlisted a) = if 0x050 ≤ a ∧ a < 0x0A0 then glyphBytes[a - 0x050]? else some 0#8 := by
  rw [Memory.unlisted, font_eq_glyphBytes]
  by_cases hbase : Config.fontBase ≤ a
  · rw [if_pos hbase]
    by_cases htop : a < 0x0A0
    · have hlt : a - 0x050 < glyphBytes.length := by
        rw [length_glyphBytes]
        omega
      rw [if_pos ⟨hbase, htop⟩, List.getD_eq_getElem _ _ hlt, List.getElem?_eq_getElem hlt]
    · have hlen : glyphBytes.length ≤ a - 0x050 := by
        rw [length_glyphBytes]
        omega
      rw [if_neg fun h => htop h.2, List.getD_eq_default _ _ hlen]
  · rw [if_neg hbase, if_neg fun h => hbase h.1]

/-- Nothing is listed after reset, so every address reads its unlisted content. -/
theorem Memory.read_reset {a : Nat} (h : a < Config.memSize) : State.reset.mem.read a = some (Memory.unlisted a) :=
  Memory.read_eq_get h

/-! ### The other pieces after reset -/

theorem State.reg_reset (k : Fin 16) : State.reset.reg k = 0#8 := Vector.getElem_replicate k.isLt

theorem State.stack_reset (k : Fin 16) : State.reset.stack[k.val] = 0#16 := Vector.getElem_replicate k.isLt

theorem State.key_reset (k : Fin 16) : State.reset.key[k.val] = false := Vector.getElem_replicate k.isLt

/-- Every cell is dark: the screen after reset is the one 00E0 leaves. -/
theorem State.cell_reset (k : Nat) : cell State.reset.fb k = false := cell_blankScreen k

/-! ### RESET as a host operation -/

/-- RESET reads nothing of the prior state but the random input, which it leaves (R242, log 9). -/
theorem perform_reset (s : State) :
    perform .reset s = ({ State.reset with rndIn := s.rndIn, draws := s.draws }, .ok) := reset_eq s

/-- Settles O45: RESET leaves `State.reset` with the random input it found, so a second one finds what the first left. -/
theorem resetIsIdempotent : Obligations.ResetIsIdempotent := by
  intro s s'
  simp only [perform_reset, and_self]

/-- Settles O46: what construction and RESET give, then each piece of `State.reset`. -/
theorem resetLeavesTheStatedValues : Obligations.ResetLeavesTheStatedValues :=
  ⟨construct_eq, perform_reset, State.reg_reset, rfl, rfl, rfl, State.stack_reset, rfl, rfl, State.key_reset,
    fun k _ => State.cell_reset k, rfl, rfl, fun a ha => (Memory.read_reset ha).trans (Memory.some_unlisted a)⟩

/-- Settles O48: the base case of the invariant. -/
theorem resetMeetsTheInvariant : Obligations.ResetMeetsTheInvariant := reset_inv

end Sys2Proof.Machine
end
